-- ==== Sys2Proof/Word.lean ====
section
/-!
DEFINITION. Word.lean: the machine's basic data types.
Registers, memory cells, addresses and instruction words are all 16 bits wide (00_scope.md R5); a character is
a byte (44_trap.md R102); a register index takes the values 0 to 7 (10_state.md R11).
-/

namespace Sys2Proof

/-- A 16-bit value: register content, cell content, cell address or instruction word (00_scope.md R5, R9). -/
abbrev Word := BitVec 16

/-- A character of the keyboard or of the output port (20_memory.md R48, 44_trap.md R102). -/
abbrev Byte := BitVec 8

/-- A general register's index: R0 to R7 (10_state.md R10, R11). -/
abbrev Reg := Fin 8

end Sys2Proof
end

