-- ==== Sys2Proof/Syntax.lean ====
section
/-!
DEFINITION. Syntax.lean: the instructions, one constructor per row of spec/opcode_table.json.
Operands are the raw fields of 30_encoding.md R53; the bits that R57 says are ignored are no operands.
The alias rows (NOP, RET, GETC to HALT) are constructors too: see the assumption log, entry 5.
-/

namespace Sys2Proof

/-- The instruction set: the sixteen opcodes of 30_encoding.md R52, with the two forms of ADD and AND and of
opcode 0100 apart, and the rows of R62 that name particular words. -/
inductive Instr where
  /-- BR, 43_control.md R90. -/
  | br (n z p : Bool) (off : BitVec 9)
  /-- NOP, BR with no condition bit: 30_encoding.md R59, R62. -/
  | nop (off : BitVec 9)
  /-- ADD, register form, 40_alu.md R70. -/
  | addReg (dr sr1 sr2 : Reg)
  /-- ADD, immediate form, 40_alu.md R71. -/
  | addImm (dr sr1 : Reg) (imm : BitVec 5)
  /-- LD, 41_load.md R80. -/
  | ld (dr : Reg) (off : BitVec 9)
  /-- ST, 42_store.md R86. -/
  | st (sr : Reg) (off : BitVec 9)
  /-- JSR, 43_control.md R93. -/
  | jsr (off : BitVec 11)
  /-- JSRR, 43_control.md R94. -/
  | jsrr (base : Reg)
  /-- AND, register form, 40_alu.md R72. -/
  | andReg (dr sr1 sr2 : Reg)
  /-- AND, immediate form, 40_alu.md R73. -/
  | andImm (dr sr1 : Reg) (imm : BitVec 5)
  /-- LDR, 41_load.md R82. -/
  | ldr (dr base : Reg) (off : BitVec 6)
  /-- STR, 42_store.md R88. -/
  | str (sr base : Reg) (off : BitVec 6)
  /-- RTI, 45_unimplemented.md R115. -/
  | rti
  /-- NOT, 40_alu.md R74. -/
  | not (dr sr : Reg)
  /-- LDI, 41_load.md R81. -/
  | ldi (dr : Reg) (off : BitVec 9)
  /-- STI, 42_store.md R87. -/
  | sti (sr : Reg) (off : BitVec 9)
  /-- JMP, 43_control.md R91. -/
  | jmp (base : Reg)
  /-- RET, JMP through R7: 43_control.md R91, 30_encoding.md R62. -/
  | ret
  /-- The reserved opcode 1101, 45_unimplemented.md R116. -/
  | res
  /-- LEA, 41_load.md R83. -/
  | lea (dr : Reg) (off : BitVec 9)
  /-- TRAP, 44_trap.md R100. -/
  | trap (vect : BitVec 8)
  /-- GETC, TRAP x20: 44_trap.md R104. -/
  | getc
  /-- OUT, TRAP x21: 44_trap.md R105. -/
  | out
  /-- PUTS, TRAP x22: 44_trap.md R106. -/
  | puts
  /-- IN, TRAP x23: 44_trap.md R107. -/
  | inp
  /-- PUTSP, TRAP x24: 44_trap.md R108. -/
  | putsp
  /-- HALT, TRAP x25: 44_trap.md R109. -/
  | halt
deriving DecidableEq, Repr

end Sys2Proof
end

