-- ==== Sys2Proof/WellFormed.lean ====
section
/-!
DEFINITION. WellFormed.lean: which terms of Instr are the reading of a word.
Every operand field admits all its values (30_encoding.md R53, 10_state.md R11), so the only check is that the
three wide constructors stay off the words that a narrower row of the opcode table names.
-/

namespace Sys2Proof

/-- The term is the one reading of its word: `br` names a condition (30_encoding.md R59), `jmp` does not go
through R7 (R62, RET) and `trap` has an unknown vector (44_trap.md R101, R110). -/
def WellFormed (i : Instr) : Bool :=
  match i with
  | .br n z p _ => n || z || p
  | .jmp base => base != 7
  | .trap vect => vect.toNat < 0x20 || 0x25 < vect.toNat
  | .nop _ | .addReg _ _ _ | .addImm _ _ _ | .ld _ _ | .st _ _ | .jsr _ | .jsrr _ | .andReg _ _ _
  | .andImm _ _ _ | .ldr _ _ _ | .str _ _ _ | .rti | .not _ _ | .ldi _ _ | .sti _ _ | .ret | .res
  | .lea _ _ | .getc | .out | .puts | .inp | .putsp | .halt => true

end Sys2Proof
end

