-- ==== Sys2Proof/Decode.lean ====
section
/-!
DEFINITION. Decode.lean: from an instruction word to an instruction and back.
The sixteen opcodes are all assigned (30_encoding.md R51), so decoding is total and refuses no word; bits that a
format does not use are ignored (R57). The encoder writes the canonical values of R62 in them, and 0
in those of the reserved opcode, for which R62 gives none (DESIGN CHOICE, log entry 11).
-/

namespace Sys2Proof

/-- The opcode: `ir[15:12]` (30_encoding.md R51). -/
def Field.op (w : Word) : BitVec 4 := w.extractLsb' 12 4

/-- `DR`, or `SR` of a store: `ir[11:9]` (30_encoding.md R53). -/
def Field.dr (w : Word) : Reg := (w.extractLsb' 9 3).toFin

/-- `SR1`, or `BaseR`: `ir[8:6]` (30_encoding.md R53). -/
def Field.sr1 (w : Word) : Reg := (w.extractLsb' 6 3).toFin

/-- `SR2`: `ir[2:0]`, all three bits in ADD and in AND (30_encoding.md R53, 90_conflicts.md C3). -/
def Field.sr2 (w : Word) : Reg := (w.extractLsb' 0 3).toFin

/-- `imm5`: `ir[4:0]` (30_encoding.md R53). -/
def Field.imm5 (w : Word) : BitVec 5 := w.extractLsb' 0 5

/-- `offset6`: `ir[5:0]` (30_encoding.md R53). -/
def Field.off6 (w : Word) : BitVec 6 := w.extractLsb' 0 6

/-- `PCoffset9`: `ir[8:0]` (30_encoding.md R53). -/
def Field.off9 (w : Word) : BitVec 9 := w.extractLsb' 0 9

/-- `PCoffset11`: `ir[10:0]` (30_encoding.md R53). -/
def Field.off11 (w : Word) : BitVec 11 := w.extractLsb' 0 11

/-- `trapvect8`: `ir[7:0]` (30_encoding.md R53). -/
def Field.vect8 (w : Word) : BitVec 8 := w.extractLsb' 0 8

/-- Opcode 0000: BR, or NOP where no condition bit is set (30_encoding.md R59, R62). -/
def decodeBr (n z p : Bool) (off : BitVec 9) : Instr :=
  if n || z || p then .br n z p off else .nop off

/-- Opcode 1100: JMP, or RET where the base register is R7 (30_encoding.md R62). -/
def decodeJmp (base : Reg) : Instr :=
  if base = 7 then .ret else .jmp base

/-- Opcode 1111: the six service routines by their vectors, TRAP for any other (44_trap.md R101). -/
def decodeTrap (vect : BitVec 8) : Instr :=
  if vect = 0x20#8 then .getc
  else if vect = 0x21#8 then .out
  else if vect = 0x22#8 then .puts
  else if vect = 0x23#8 then .inp
  else if vect = 0x24#8 then .putsp
  else if vect = 0x25#8 then .halt
  else .trap vect

/-- What the rest of the word means under each opcode, and the sub-selector where the opcode has one
(30_encoding.md R52, R60). The last line is opcode 1111: all sixteen are assigned. -/
def decodeOp (op : BitVec 4) (w : Word) : Instr :=
  if op = 0x0#4 then decodeBr (w.getLsbD 11) (w.getLsbD 10) (w.getLsbD 9) (Field.off9 w)
  else if op = 0x1#4 then
    if w.getLsbD 5 then .addImm (Field.dr w) (Field.sr1 w) (Field.imm5 w)
    else .addReg (Field.dr w) (Field.sr1 w) (Field.sr2 w)
  else if op = 0x2#4 then .ld (Field.dr w) (Field.off9 w)
  else if op = 0x3#4 then .st (Field.dr w) (Field.off9 w)
  else if op = 0x4#4 then if w.getLsbD 11 then .jsr (Field.off11 w) else .jsrr (Field.sr1 w)
  else if op = 0x5#4 then
    if w.getLsbD 5 then .andImm (Field.dr w) (Field.sr1 w) (Field.imm5 w)
    else .andReg (Field.dr w) (Field.sr1 w) (Field.sr2 w)
  else if op = 0x6#4 then .ldr (Field.dr w) (Field.sr1 w) (Field.off6 w)
  else if op = 0x7#4 then .str (Field.dr w) (Field.sr1 w) (Field.off6 w)
  else if op = 0x8#4 then .rti
  else if op = 0x9#4 then .not (Field.dr w) (Field.sr1 w)
  else if op = 0xA#4 then .ldi (Field.dr w) (Field.off9 w)
  else if op = 0xB#4 then .sti (Field.dr w) (Field.off9 w)
  else if op = 0xC#4 then decodeJmp (Field.sr1 w)
  else if op = 0xD#4 then .res
  else if op = 0xE#4 then .lea (Field.dr w) (Field.off9 w)
  else decodeTrap (Field.vect8 w)

/-- Decode one instruction word, by its opcode first (30_encoding.md R51, R60). -/
def decode (w : Word) : Instr := decodeOp (Field.op w) w

/-- The bits of a word that its format ignores (30_encoding.md R57). -/
def ignoredBits (w : Word) : Word :=
  if Field.op w = 0x1#4 ∨ Field.op w = 0x5#4 then if w.getLsbD 5 then 0x0000#16 else 0x0018#16
  else if Field.op w = 0x4#4 then if w.getLsbD 11 then 0x0000#16 else 0x063F#16
  else if Field.op w = 0x8#4 ∨ Field.op w = 0xD#4 then 0x0FFF#16
  else if Field.op w = 0x9#4 then 0x003F#16
  else if Field.op w = 0xC#4 then 0x0E3F#16
  else if Field.op w = 0xF#4 then 0x0F00#16
  else 0x0000#16

/-- A field's bits shifted to their place in a word (30_encoding.md R63). -/
def put {n : Nat} (v : BitVec n) (lo : Nat) : Word := v.setWidth 16 <<< lo

/-- A register index shifted to its place in a word (30_encoding.md R63). -/
def putReg (r : Reg) (lo : Nat) : Word := put (BitVec.ofFin r : BitVec 3) lo

/-- The word of an instruction: its fields shifted to their places (30_encoding.md R63), with the canonical values of
R62 in the ignored bits. R62 gives none for the low twelve bits of the reserved opcode 1101: that they are written 0,
so that its word is 0xD000, is the model's own (DESIGN CHOICE, safe, log entry 11). -/
def encode (i : Instr) : Word :=
  match i with
  | .br n z p off => put (BitVec.ofBool n) 11 ||| put (BitVec.ofBool z) 10 ||| put (BitVec.ofBool p) 9 ||| put off 0
  | .nop off => put off 0
  | .addReg dr sr1 sr2 => put 0x1#4 12 ||| putReg dr 9 ||| putReg sr1 6 ||| putReg sr2 0
  | .addImm dr sr1 imm => put 0x1#4 12 ||| putReg dr 9 ||| putReg sr1 6 ||| put 1#1 5 ||| put imm 0
  | .ld dr off => put 0x2#4 12 ||| putReg dr 9 ||| put off 0
  | .st sr off => put 0x3#4 12 ||| putReg sr 9 ||| put off 0
  | .jsr off => put 0x4#4 12 ||| put 1#1 11 ||| put off 0
  | .jsrr base => put 0x4#4 12 ||| putReg base 6
  | .andReg dr sr1 sr2 => put 0x5#4 12 ||| putReg dr 9 ||| putReg sr1 6 ||| putReg sr2 0
  | .andImm dr sr1 imm => put 0x5#4 12 ||| putReg dr 9 ||| putReg sr1 6 ||| put 1#1 5 ||| put imm 0
  | .ldr dr base off => put 0x6#4 12 ||| putReg dr 9 ||| putReg base 6 ||| put off 0
  | .str sr base off => put 0x7#4 12 ||| putReg sr 9 ||| putReg base 6 ||| put off 0
  | .rti => put 0x8#4 12
  | .not dr sr => put 0x9#4 12 ||| putReg dr 9 ||| putReg sr 6 ||| put 0x3F#6 0
  | .ldi dr off => put 0xA#4 12 ||| putReg dr 9 ||| put off 0
  | .sti sr off => put 0xB#4 12 ||| putReg sr 9 ||| put off 0
  | .jmp base => put 0xC#4 12 ||| putReg base 6
  | .ret => put 0xC#4 12 ||| putReg 7 6
  | .res => put 0xD#4 12
  | .lea dr off => put 0xE#4 12 ||| putReg dr 9 ||| put off 0
  | .trap vect => put 0xF#4 12 ||| put vect 0
  | .getc => put 0xF#4 12 ||| put 0x20#8 0
  | .out => put 0xF#4 12 ||| put 0x21#8 0
  | .puts => put 0xF#4 12 ||| put 0x22#8 0
  | .inp => put 0xF#4 12 ||| put 0x23#8 0
  | .putsp => put 0xF#4 12 ||| put 0x24#8 0
  | .halt => put 0xF#4 12 ||| put 0x25#8 0

/-- The instruction word whose low `nbits` bits are those of `w` and whose other bits are 0. -/
def tableWord (nbits w : Nat) : Word := BitVec.ofNat 16 (w % 2 ^ nbits)

/-- What the decoder reads from a row of spec/opcode_table.json. An instruction is exactly one 16-bit word
(30_encoding.md R50), so there is none with more bits. -/
def decodeTableWord (nbits w : Nat) : Option Instr :=
  if nbits ≤ 16 then some (decode (tableWord nbits w)) else none

end Sys2Proof
end

