-- ==== Sys2Proof/Config.lean ====
section
/-!
DEFINITION. Config.lean: what is fixed for the machine and never changes as it runs.
The two keyboard addresses are the architecture's (00_scope.md R5); the start address and the two texts are
parameters the spec leaves open (R6), as is the keyboard stream: the texts and the endless streams are opaque, so no
proof can learn what they are.
-/

namespace Sys2Proof

/-- Keyboard status register: 0xFE00 (20_memory.md R42). -/
def Config.kbsr : Word := 0xFE00#16

/-- Keyboard data register: 0xFE02 (20_memory.md R42). -/
def Config.kbdr : Word := 0xFE02#16

/-- What a cell holds that nothing has written: memory is "zero-initialized" (10_state.md R20, R27). -/
def Config.blank : Word := 0x0000#16

/-- ORIGIN where no image gives one (10_state.md R25; DESIGN CHOICE, unsafe: log entry 2). -/
def Config.origin : Word := 0x3000#16

/-- IN_PROMPT, what IN emits to "prompt the user": a free value (92_eei_decisions.md D12; safe: log entry 1). -/
opaque Config.inPrompt : List Byte

/-- HALT_TEXT, the "halt indicator": a free value (92_eei_decisions.md D12; safe: log entry 1). -/
opaque Config.haltText : List Byte

namespace Machine

/-- What the terminal answers to one `poll_ready` (20_memory.md R48): false, or true with the byte that the
`read_byte` right after it gives. -/
inductive PollAnswer where
  | notReady
  | ready (b : Byte)
deriving DecidableEq, Repr

end Machine

open Machine

/-- The free endless streams of KBD whose every poll is ready with a non-zero byte: the byte at position `pos` of
stream `id`, less 1 (20_memory.md R48; free value, safe: log entry 3). -/
opaque Config.steadyKey (id pos : Nat) : Fin 255

/-- The byte at position `pos` of the steady stream `id`: any byte but 0x00. -/
def Config.steadyByte (id pos : Nat) : Byte := BitVec.ofNat 8 ((Config.steadyKey id pos).val + 1)

/-- The free endless streams of KBD in which keys never end and neither do failed polls or zero bytes, cut into
blocks: the front of block `pos` of stream `id`, and how the block ends (20_memory.md R48; free value, safe: log
entry 3). -/
opaque Config.fitfulBlock (id pos : Nat) : List PollAnswer × Option Byte

/-- The answers of a block: its front, and then a zero byte, or a failed poll and a byte. Every stream with endless
keys and endless failed polls or zero bytes can be cut so, since after any position both still come. -/
def Config.fitfulAnswers (id pos : Nat) : List PollAnswer :=
  (Config.fitfulBlock id pos).1 ++
    match (Config.fitfulBlock id pos).2 with
    | none => [.ready 0x00#8]
    | some b => [.notReady, .ready b]

end Sys2Proof
end

