-- ==== Sys2Proof/Machine/Memory.lean ====
section
/-!
DEFINITION. Memory.lean: the 65536 cells of 16 bits behind the bus (10_state.md R20, 20_memory.md R30).
The smallest addressable unit of this machine is the 16-bit cell (R38), so memory is a list of (address, cell)
pairs, strictly rising in address, and a cell that holds `Config.blank` is not listed (log entry 8).
-/

namespace Sys2Proof.Machine

/-- The listed cells, in rising order of address; every other cell holds `Config.blank`. -/
abbrev Memory := List (Nat × Word)

/-- The cell that the list gives address `a`, `Config.blank` where it is not listed. -/
def lookup (m : Memory) (a : Nat) : Word :=
  match m with
  | [] => Config.blank
  | (b, v) :: rest => if a = b then v else lookup rest a

/-- The list without address `a`. -/
def eraseCell (m : Memory) (a : Nat) : Memory :=
  match m with
  | [] => []
  | (b, v) :: rest => if a = b then eraseCell rest a else (b, v) :: eraseCell rest a

/-- The list with the pair `(a, v)` put before the first higher address. -/
def insertCell (m : Memory) (a : Nat) (v : Word) : Memory :=
  match m with
  | [] => [(a, v)]
  | (b, u) :: rest => if a < b then (a, v) :: (b, u) :: rest else (b, u) :: insertCell rest a v

/-- `mem[a]`: the storage cell itself, without interception (00_scope.md R9). -/
def Memory.read (m : Memory) (a : Word) : Word := lookup m a.toNat

/-- `mem[a] <- v` (20_memory.md R35); a blank cell is taken off the list. -/
def Memory.write (m : Memory) (a : Word) (v : Word) : Memory :=
  if v = Config.blank then eraseCell m a.toNat else insertCell (eraseCell m a.toNat) a.toNat v

/-- Every listed address is `lo` or above, below 65536 and below the next one, and no listed cell is blank. -/
def wellOrdered (lo : Nat) (m : Memory) : Bool :=
  match m with
  | [] => true
  | (b, v) :: rest => decide (lo ≤ b) && decide (b < 65536) && (v != Config.blank) && wellOrdered (b + 1) rest

/-- The canonical form: equal memories are equal lists. -/
def Memory.wf (m : Memory) : Bool := wellOrdered 0 m

end Sys2Proof.Machine
end

