-- ==== Sys2Proof/Machine/State.lean ====
section
/-!
DEFINITION. State.lean: everything the spec gives the machine (10_state.md, introduction and R23), and the two
streams of the terminal that its rules read and write (20_memory.md R48, 44_trap.md R102).
-/

namespace Sys2Proof.Machine

/-- The condition-flag register: exactly one of three (10_state.md R14). -/
inductive Cond where
  | negative
  | zero
  | positive
deriving DecidableEq, Repr

/-- The run condition (10_state.md R18). -/
inductive Run where
  | running
  | halted
  | faulted
deriving DecidableEq, Repr

/-- How a keyboard stream goes on after its listed answers (20_memory.md R48, "a finite or infinite sequence of bytes
consumed front first, with an availability oracle"). Every sequence of poll answers is a list and then one of these
(log entry 3). `id` names a free stream of Config and `pos` is how far it is consumed. -/
inductive KbdRest where
  /-- No poll is ever true again: the stream is exhausted, or what remains of it never becomes available. -/
  | silent
  /-- An endless stream, always ready, without the byte 0x00: `Config.steadyByte`. -/
  | steady (id pos : Nat)
  /-- An endless stream in which keys never end, nor do failed polls or zero bytes: `Config.fitfulAnswers`. -/
  | fitful (id pos : Nat)
deriving DecidableEq, Repr

/-- KBD with its availability oracle, as what the terminal will answer to the polls to come (20_memory.md R48,
92_eei_decisions.md D11; log entry 3). -/
structure Kbd where
  /-- Its answers to the next polls, oldest first. -/
  now : List PollAnswer
  /-- How it goes on after those. -/
  rest : KbdRest
deriving DecidableEq, Repr

/-- The machine. -/
structure State where
  /-- R0 to R7 (10_state.md R10). -/
  regs : Vector Word 8
  /-- The program counter (10_state.md R12). -/
  pc : Word
  /-- The condition-flag register (10_state.md R14). -/
  cond : Cond
  /-- The run condition (10_state.md R18). -/
  run : Run
  /-- `fault_opcode`, meaningful only when `run` is `faulted` (10_state.md R19). -/
  faultOpcode : BitVec 4
  /-- The memory cells (10_state.md R20). -/
  mem : Memory
  /-- The keyboard latch: is a byte latched (10_state.md R21). -/
  kbdReady : Bool
  /-- The keyboard latch: the byte (10_state.md R21). -/
  kbdByte : Byte
  /-- The terminal's input side (20_memory.md R48). -/
  kbd : Kbd
  /-- The bytes emitted since reset, oldest first (44_trap.md R102). -/
  out : List Byte
deriving DecidableEq, Repr

/-- Why no next state exists. None of these is the machine's own exception: `UnimplementedOpcode`
(60_exceptions.md R121) leads to a next state, whose `run` is `faulted`. -/
inductive Fault where
  /-- Raised by `step` when `run` is `halted`: the core takes no step (10_state.md R18). Safe: the machine stands
  still for ever. -/
  | halted
  /-- Raised by `step` when `run` is `faulted`: the core takes no step (10_state.md R18). Safe, as above. `op` is
  the fault record (R19). -/
  | faulted (op : BitVec 4)
  /-- Raised by GETC and IN (and TRAP with their vectors) when no poll will ever be answered true: the step never
  completes (44_trap.md R103). Safe: there is no next state. `spin` is the state in which the core polls for ever:
  R7 is written and the prompt is out (R107). -/
  | keyWait (spin : State)
  /-- Raised by PUTS (and TRAP with its vector) when the scan meets no terminator however long it goes on: the step
  never completes (44_trap.md R113). Safe: there is no next state. -/
  | endlessString
deriving DecidableEq, Repr

/-- Why the model gives no meaning. -/
inductive Refusal where
  /-- The instruction has no meaning in this model yet; raised by `exec`'s arm alone. Safe. -/
  | notModelled (mnemonic : String)
deriving DecidableEq, Repr

/-- How a step ends. -/
abbrev Result := Host.Outcome State Fault Refusal

/-- `reset(ORIGIN, MEM_INIT)` (70_reset_and_hazards.md R140), with KBD, the third input of the platform
(00_scope.md R6): "whatever the terminal supplies from then on". The spec gives `fault_opcode` no meaning at reset
(DESIGN CHOICE 0: log entry 4). -/
def State.resetWith (origin : Word) (memInit : Memory) (kbd : Kbd) : State where
  regs := Vector.replicate 8 0x0000#16
  pc := origin
  cond := .zero
  run := .running
  faultOpcode := 0x0#4
  mem := memInit
  kbdReady := false
  kbdByte := 0x00#8
  kbd := kbd
  out := []

/-- The machine right after reset with no image loaded (DESIGN CHOICE: log entry 2) and a terminal that supplies a
free endless stream of keys (DESIGN CHOICE: log entry 3). -/
def State.reset : State := State.resetWith Config.origin [] { now := [], rest := .steady 0 0 }

end Sys2Proof.Machine
end

