-- ==== Sys2Proof/Machine/Ops.lean ====
section
/-!
DEFINITION. Ops.lean: the named operations over the state that every instruction is written in: registers, the
program counter, the memory bus with the keyboard latch, the output port, and the one exception.
-/

namespace Sys2Proof.Machine

/-- `x[r]` (00_scope.md R9). -/
def State.reg (s : State) (r : Reg) : Word := s.regs[r]

/-- `x[r] <- v` (00_scope.md R9); no register is hard-wired (10_state.md R10). -/
def State.setReg (s : State) (r : Reg) (v : Word) : State := { s with regs := s.regs.set r v }

/-- `pc <- target` (00_scope.md R9). -/
def State.setPc (s : State) (target : Word) : State := { s with pc := target }

/-- `x[7] <- pc`: the return address of JSR, JSRR and TRAP (43_control.md R95). -/
def State.link (s : State) : State := s.setReg 7 s.pc

/-- The answers a stream lists next, and how it goes on after them. -/
def KbdRest.unroll (r : KbdRest) : List PollAnswer × KbdRest :=
  match r with
  | .silent => ([], .silent)
  | .steady id pos => ([.ready (Config.steadyByte id pos)], .steady id (pos + 1))
  | .fitful id pos => (Config.fitfulAnswers id pos, .fitful id (pos + 1))

/-- The stream with an answer listed, if there is one to come. -/
def Kbd.refill (k : Kbd) : Kbd :=
  match k.now with
  | [] => { now := k.rest.unroll.1, rest := k.rest.unroll.2 }
  | _ :: _ => k

/-- One `poll_ready`, and the `read_byte` after it when it answered true (20_memory.md R48): the byte, if any, and
the stream with the answer taken off its front. -/
def Kbd.poll (k : Kbd) : Option Byte × Kbd :=
  match k.refill.now with
  | [] => (none, k.refill)
  | .notReady :: more => (none, { k.refill with now := more })
  | .ready b :: more => (some b, { k.refill with now := more })

/-- The poll by the core. -/
def State.poll (s : State) : Option Byte × State := (s.kbd.poll.1, { s with kbd := s.kbd.poll.2 })

/-- The poll of a status read: only with the latch empty; a byte the terminal has is latched (20_memory.md R33). -/
def State.pollLatch (s : State) : State :=
  if s.kbdReady then s
  else
    match s.poll with
    | (none, t) => t
    | (some b, t) => { t with kbdReady := true, kbdByte := b }

/-- `KbsrRead()` (20_memory.md R33). -/
def State.kbsrRead (s : State) : Word × State :=
  let t := s.pollLatch
  (if t.kbdReady then 0x8000#16 else 0x0000#16, t)

/-- `KbdrRead()` (20_memory.md R34). -/
def State.kbdrRead (s : State) : Word × State :=
  if s.kbdReady then (s.kbdByte.setWidth 16, { s with kbdReady := false, kbdByte := 0x00#8 })
  else (0x0000#16, s)

/-- `MemRead(a, 1)`: one cell through the bus, the two keyboard addresses intercepted (20_memory.md R32). -/
def State.memRead (s : State) (a : Word) : Word × State :=
  if a = Config.kbsr then s.kbsrRead
  else if a = Config.kbdr then s.kbdrRead
  else (s.mem.read a, s)

/-- `MemWrite(a, 1, v)`: unconditional storage (20_memory.md R35). -/
def State.memWrite (s : State) (a v : Word) : State := { s with mem := s.mem.write a v }

/-- `emit(b)` for each byte in order (44_trap.md R102). -/
def State.emit (s : State) (bs : List Byte) : State := { s with out := s.out ++ bs }

/-- Fetch through the bus, then increment the program counter (10_state.md R13, R29; 20_memory.md R49). -/
def State.fetch (s : State) : Word × State :=
  let r := s.memRead s.pc
  (r.1, r.2.setPc (r.2.pc + 1#16))

/-- `raise UnimplementedOpcode(op)`: taking the machine's one exception (60_exceptions.md R121). It saves nothing
but the opcode and goes nowhere (R125), and there is no return from it (R127). -/
def State.raiseUnimplementedOpcode (s : State) (op : BitVec 4) : State :=
  { s with faultOpcode := op, run := .faulted }

/-- Store the word where `step` fetches its next instruction, and let the machine run. -/
def State.placeInstr (s : State) (w : Word) : State :=
  { s.memWrite s.pc w with run := .running }

end Sys2Proof.Machine
end

