-- ==== Sys2Proof/Machine/Flags.lean ====
section
/-!
DEFINITION. Flags.lean: the one flag computation of the machine (10_state.md R17).
-/

namespace Sys2Proof.Machine

/-- The flag of a value: ZERO for 0, NEGATIVE where bit 15 is set, POSITIVE otherwise (10_state.md R17). -/
def flagOf (v : Word) : Cond :=
  if v = 0x0000#16 then .zero
  else if v.getLsbD 15 then .negative
  else .positive

/-- `setcc(v)` (10_state.md R17). -/
def State.setcc (s : State) (v : Word) : State := { s with cond := flagOf v }

/-- `x[dr] <- v; setcc(v)`: how every value-producing instruction, GETC and IN end (10_state.md R16). -/
def State.produce (s : State) (dr : Reg) (v : Word) : State := (s.setReg dr v).setcc v

end Sys2Proof.Machine
end

