-- ==== Sys2Proof/Machine/Operands.lean ====
section
/-!
DEFINITION. Operands.lean: sign extension and the addressing modes (30_encoding.md R54, R55; 41_load.md R84), and
the two bytes of a cell.
-/

namespace Sys2Proof.Machine

/-- `sext_N`: the field with its sign bit copied into all higher bits (30_encoding.md R54). -/
def sext {n : Nat} (v : BitVec n) : Word := v.signExtend 16

/-- `pc + sext_9(off)`, `pc` being the incremented one (41_load.md R84, 10_state.md R13). -/
def State.pcRel9 (s : State) (off : BitVec 9) : Word := s.pc + sext off

/-- `pc + sext_11(off)` (43_control.md R93). -/
def State.pcRel11 (s : State) (off : BitVec 11) : Word := s.pc + sext off

/-- `x[base] + sext_6(off)` (41_load.md R84). -/
def State.baseOff (s : State) (base : Reg) (off : BitVec 6) : Word := s.reg base + sext off

/-- The indirect mode: the pointer read, through the bus, from the PC-relative cell (41_load.md R84). -/
def State.pointer9 (s : State) (off : BitVec 9) : Word × State := s.memRead (s.pcRel9 off)

/-- `c[7:0]`. -/
def lowByte (c : Word) : Byte := c.extractLsb' 0 8

/-- `c[15:8]`. -/
def highByte (c : Word) : Byte := c.extractLsb' 8 8

/-- The BR test: a condition bit is set whose flag is the current one (43_control.md R90, 10_state.md R15). -/
def State.taken (s : State) (n z p : Bool) : Bool :=
  match s.cond with
  | .negative => n
  | .zero => z
  | .positive => p

end Sys2Proof.Machine
end

