-- ==== Sys2Proof/Machine/Alu.lean ====
section
/-!
DEFINITION. Alu.lean: ADD, AND and NOT (40_alu.md). The sources are read before the destination is written.
-/

namespace Sys2Proof.Machine

/-- ADD, register form (40_alu.md R70). -/
def execAddReg (dr sr1 sr2 : Reg) (s : State) : Result :=
  .next (s.produce dr (s.reg sr1 + s.reg sr2))

/-- ADD, immediate form (40_alu.md R71). -/
def execAddImm (dr sr1 : Reg) (imm : BitVec 5) (s : State) : Result :=
  .next (s.produce dr (s.reg sr1 + sext imm))

/-- AND, register form (40_alu.md R72). -/
def execAndReg (dr sr1 sr2 : Reg) (s : State) : Result :=
  .next (s.produce dr (s.reg sr1 &&& s.reg sr2))

/-- AND, immediate form (40_alu.md R73). -/
def execAndImm (dr sr1 : Reg) (imm : BitVec 5) (s : State) : Result :=
  .next (s.produce dr (s.reg sr1 &&& sext imm))

/-- NOT (40_alu.md R74). -/
def execNot (dr sr : Reg) (s : State) : Result :=
  .next (s.produce dr (~~~(s.reg sr)))

end Sys2Proof.Machine
end

