-- ==== Sys2Proof/Machine/Control.lean ====
section
/-!
DEFINITION. Control.lean: BR, NOP, JMP, RET, JSR and JSRR (43_control.md). None touches the flags or memory.
-/

namespace Sys2Proof.Machine

/-- BR (43_control.md R90): the target is the computed address itself (90_conflicts.md C1). -/
def execBr (n z p : Bool) (off : BitVec 9) (s : State) : Result :=
  .next (if s.taken n z p then s.setPc (s.pcRel9 off) else s)

/-- NOP: BR with no condition bit, never taken (30_encoding.md R59, R62). -/
def execNop (off : BitVec 9) (s : State) : Result :=
  .next (if s.taken false false false then s.setPc (s.pcRel9 off) else s)

/-- JMP (43_control.md R91). -/
def execJmp (base : Reg) (s : State) : Result :=
  .next (s.setPc (s.reg base))

/-- RET: JMP through R7 (43_control.md R91, 30_encoding.md R62). -/
def execRet (s : State) : Result :=
  .next (s.setPc (s.reg 7))

/-- JSR: the offset is added to the same incremented `pc` that R7 receives (43_control.md R93). -/
def execJsr (off : BitVec 11) (s : State) : Result :=
  .next (s.link.setPc (s.link.pcRel11 off))

/-- JSRR: R7 is written first, then the base register is read (43_control.md R94, 92_eei_decisions.md D14). -/
def execJsrr (base : Reg) (s : State) : Result :=
  .next (s.link.setPc (s.link.reg base))

end Sys2Proof.Machine
end

