-- ==== Sys2Proof/Machine/Load.lean ====
section
/-!
DEFINITION. Load.lean: LD, LDI, LDR and LEA (41_load.md). Every read goes through the bus, so a load from a keyboard
address has the side effects of that read before the destination is written.
-/

namespace Sys2Proof.Machine

/-- LD (41_load.md R80). -/
def execLd (dr : Reg) (off : BitVec 9) (s : State) : Result :=
  let v := s.memRead (s.pcRel9 off)
  .next (v.2.produce dr v.1)

/-- LDI: the pointer read, then the data read (41_load.md R81, 20_memory.md R45). -/
def execLdi (dr : Reg) (off : BitVec 9) (s : State) : Result :=
  let ea := s.pointer9 off
  let v := ea.2.memRead ea.1
  .next (v.2.produce dr v.1)

/-- LDR (41_load.md R82). -/
def execLdr (dr base : Reg) (off : BitVec 6) (s : State) : Result :=
  let v := s.memRead (s.baseOff base off)
  .next (v.2.produce dr v.1)

/-- LEA: the address itself, no memory access (41_load.md R83, 90_conflicts.md C1). -/
def execLea (dr : Reg) (off : BitVec 9) (s : State) : Result :=
  .next (s.produce dr (s.pcRel9 off))

end Sys2Proof.Machine
end

