-- ==== Sys2Proof/Machine/Store.lean ====
section
/-!
DEFINITION. Store.lean: ST, STI and STR (42_store.md). No store changes a register, `pc` or `cond`, and none fails
(R89).
-/

namespace Sys2Proof.Machine

/-- ST (42_store.md R86). -/
def execSt (sr : Reg) (off : BitVec 9) (s : State) : Result :=
  .next (s.memWrite (s.pcRel9 off) (s.reg sr))

/-- STI: the pointer read, then the write (42_store.md R87, 20_memory.md R45). -/
def execSti (sr : Reg) (off : BitVec 9) (s : State) : Result :=
  let ea := s.pointer9 off
  .next (ea.2.memWrite ea.1 (ea.2.reg sr))

/-- STR (42_store.md R88). -/
def execStr (sr base : Reg) (off : BitVec 6) (s : State) : Result :=
  .next (s.memWrite (s.baseOff base off) (s.reg sr))

end Sys2Proof.Machine
end

