-- ==== Sys2Proof/Machine/Trap.lean ====
section
/-!
DEFINITION. Trap.lean: TRAP and its six hardwired routines (44_trap.md). The whole routine is part of the step
(10_state.md R29); R7 is written before it, for every vector, and `pc` stays after the TRAP (44_trap.md R100).
-/

namespace Sys2Proof.Machine

/-- The poll loop of `WaitKey`, at most `fuel` status reads: the state after it, and whether the last read had
bit 15 set (44_trap.md R103). -/
def waitReady (fuel : Nat) (s : State) : State × Bool :=
  match fuel with
  | 0 => (s, false)
  | n + 1 =>
    let st := s.memRead Config.kbsr
    if st.1.getLsbD 15 then (st.2, true) else waitReady n st.2

/-- How many answers a stream has listed, counting those it lists next when they are used up. -/
def Kbd.depth (k : Kbd) : Nat := k.now.length + k.rest.unroll.1.length

/-- `WaitKey()` up to its data read (44_trap.md R103). Every failed poll takes one listed answer off the stream; the
answers that an endless stream lists next hold a key, and a silent one lists none. So one read more than its depth is
the whole loop: if that many fail, the loop never ends. -/
def State.waitKey (s : State) : State × Bool := waitReady (s.kbd.depth + 1) s

/-- The end of GETC and IN, once the wait is over: the data read into R0, the echo if any, the flags
(44_trap.md R104, R107). -/
def State.takeKey (s : State) (echo : Bool) : State :=
  let v := s.memRead Config.kbdr
  let t := v.2.setReg 0 v.1
  (if echo then t.emit [lowByte v.1] else t).setcc v.1

/-- GETC's routine (44_trap.md R104). -/
def trapGetc (s : State) : Result :=
  match s.waitKey with
  | (t, true) => .next (t.takeKey false)
  | (t, false) => .fault (.keyWait t)

/-- OUT's routine (44_trap.md R105). -/
def trapOut (s : State) : Result :=
  .next (s.emit [lowByte (s.reg 0)])

/-- The scan of PUTS from address `a`, at most `fuel` cells: one byte a cell up to a zero cell (44_trap.md R106,
R112). -/
def scanPuts (fuel : Nat) (a : Word) (s : State) : Option State :=
  match fuel with
  | 0 => none
  | n + 1 =>
    let c := s.memRead a
    if c.1 = 0x0000#16 then some c.2
    else scanPuts n (a + 1#16) (c.2.emit [lowByte c.1])

/-- The scan of PUTSP from address `a`, at most `fuel` cells: low byte, then high byte, up to a zero byte
(44_trap.md R108, R112). -/
def scanPutsp (fuel : Nat) (a : Word) (s : State) : Option State :=
  match fuel with
  | 0 => none
  | n + 1 =>
    let c := s.memRead a
    if lowByte c.1 = 0x00#8 then some c.2
    else if highByte c.1 = 0x00#8 then some (c.2.emit [lowByte c.1])
    else scanPutsp n (a + 1#16) ((c.2.emit [lowByte c.1]).emit [highByte c.1])

/-- How many cells a scan may read before it is known never to end. A round of all 65536 addresses that meets no
terminator reads both keyboard registers, finds a key ready and takes it (20_memory.md R33, R34), so it uses up the
byte already latched or a listed answer. What a fitful stream lists next holds a failed poll or a zero byte, which
ends the scan; a silent one fails at once; so only a steady one outlasts the listed answers, and then every further
round is like the last (44_trap.md R113; log entry 9). -/
def State.scanFuel (s : State) : Nat := 65536 * (s.kbd.depth + 3)

/-- PUTS's routine (44_trap.md R106, R113). -/
def trapPuts (s : State) : Result :=
  match scanPuts s.scanFuel (s.reg 0) s with
  | some t => .next t
  | none => .fault .endlessString

/-- IN's routine: the prompt comes before the wait (44_trap.md R107). -/
def trapIn (s : State) : Result :=
  match (s.emit Config.inPrompt).waitKey with
  | (t, true) => .next (t.takeKey true)
  | (t, false) => .fault (.keyWait t)

/-- PUTSP's routine (44_trap.md R108, R113). -/
def trapPutsp (s : State) : Result :=
  match scanPutsp s.scanFuel (s.reg 0) s with
  | some t => .next t
  | none => .fault .endlessString

/-- HALT's routine (44_trap.md R109). -/
def trapHalt (s : State) : Result :=
  .next { s.emit Config.haltText with run := .halted }

/-- TRAP: R7, then the dispatch on the vector; an unknown vector does nothing more (44_trap.md R100, R110). -/
def execTrap (vect : BitVec 8) (s : State) : Result :=
  if vect = 0x20#8 then trapGetc s.link
  else if vect = 0x21#8 then trapOut s.link
  else if vect = 0x22#8 then trapPuts s.link
  else if vect = 0x23#8 then trapIn s.link
  else if vect = 0x24#8 then trapPutsp s.link
  else if vect = 0x25#8 then trapHalt s.link
  else .next s.link

/-- GETC, TRAP x20 (44_trap.md R104). -/
def execGetc (s : State) : Result := trapGetc s.link

/-- OUT, TRAP x21 (44_trap.md R105). -/
def execOut (s : State) : Result := trapOut s.link

/-- PUTS, TRAP x22 (44_trap.md R106). -/
def execPuts (s : State) : Result := trapPuts s.link

/-- IN, TRAP x23 (44_trap.md R107). -/
def execIn (s : State) : Result := trapIn s.link

/-- PUTSP, TRAP x24 (44_trap.md R108). -/
def execPutsp (s : State) : Result := trapPutsp s.link

/-- HALT, TRAP x25 (44_trap.md R109). -/
def execHalt (s : State) : Result := trapHalt s.link

end Sys2Proof.Machine
end

