-- ==== Sys2Proof/Machine/Unimplemented.lean ====
section
/-!
DEFINITION. Unimplemented.lean: RTI and the reserved opcode, which take the machine's one exception
(45_unimplemented.md, 60_exceptions.md R121).
-/

namespace Sys2Proof.Machine

/-- RTI, opcode 1000 (45_unimplemented.md R115). -/
def execRti (s : State) : Result := .next (s.raiseUnimplementedOpcode 0x8#4)

/-- The reserved opcode 1101 (45_unimplemented.md R116). -/
def execRes (s : State) : Result := .next (s.raiseUnimplementedOpcode 0xD#4)

end Sys2Proof.Machine
end

