-- ==== Sys2Proof/Machine/Step.lean ====
section
/-!
DEFINITION. Step.lean: one step of the core, enabled only while `run` is `running` (10_state.md R18, R29).
-/

namespace Sys2Proof.Machine

/-- Fetch through the bus, increment `pc`, decode, execute (10_state.md R29). In `halted` and in `faulted` the core
takes no step (R18). -/
def step (s : State) : Host.Outcome State Fault Refusal :=
  match s.run with
  | .running => exec (decode s.fetch.1) s.fetch.2
  | .halted => .fault .halted
  | .faulted => .fault (.faulted s.faultOpcode)

/-- `s` with the instruction of a row of spec/opcode_table.json where `step` fetches next, and running. At the two
keyboard addresses no word can be placed, since every fetch there is intercepted (20_memory.md R49). -/
def State.withFetchWord (s : State) (nbits w : Nat) : State := s.placeInstr (tableWord nbits w)

end Sys2Proof.Machine
end

