-- ==== Sys2Proof/Machine/Boot.lean ====
section
/-!
DEFINITION. Boot.lean: MEM_INIT and ORIGIN from a program image, as the platform builds them before the first step
(70_reset_and_hazards.md R142, 10_state.md R27). The loader is outside the block (00_scope.md R4): no step calls it.
-/

namespace Sys2Proof.Machine

/-- The big-endian 16-bit words of an image; none for an odd length (70_reset_and_hazards.md R142). -/
def imageWords (bytes : List Byte) : Option (List Word) :=
  match bytes with
  | [] => some []
  | [_] => none
  | hi :: lo :: rest =>
    match imageWords rest with
    | some ws => some ((hi ++ lo) :: ws)
    | none => none

/-- Copy words into memory from address `a` on, in order (10_state.md R27). -/
def loadWords (m : Memory) (a : Word) (ws : List Word) : Memory :=
  match ws with
  | [] => m
  | w :: rest => loadWords (m.write a w) (a + 1#16) rest

/-- The machine right after reset with an image loaded and a keyboard stream: the image's first word is ORIGIN, the
words after it stand from ORIGIN on, every other cell is 0x0000 (70_reset_and_hazards.md R142). None for an image the
loader refuses (odd length or empty, 60_exceptions.md R128) and for one that would run past 0xFFFF, of which the spec
says nothing (91_not_in_source.md N18; log entry 6). -/
def bootImage (bytes : List Byte) (kbd : Kbd) : Option State :=
  match imageWords bytes with
  | some (origin :: ws) =>
    if origin.toNat + ws.length ≤ 65536 then some (State.resetWith origin (loadWords [] origin ws) kbd) else none
  | some [] => none
  | none => none

end Sys2Proof.Machine
end

