-- ==== Sys2Proof/Safety.lean ====
section
/-!
DEFINITION. Safety.lean: the terms that claims about the machine are stated in: how a run ends, the invariant of the
state, what an instruction may write, and which states no program can tell apart.
-/

namespace Sys2Proof.Machine

/-- The run ended normally, by the HALT routine (70_reset_and_hazards.md R144). -/
def State.endedWell (s : State) : Bool := s.run == .halted

/-- The run ended by the fatal error, which is never a final state of a correct run (60_exceptions.md R123). -/
def State.endedBadly (s : State) : Bool := s.run == .faulted

/-- An empty latch holds the byte 0 (10_state.md R21, R28; 20_memory.md R34). -/
def State.latchWf (s : State) : Bool := s.kbdReady || s.kbdByte == 0x00#8

/-- In `faulted` the fault record is one of the two opcodes that fault (10_state.md R19). -/
def State.faultWf (s : State) : Bool :=
  s.run != .faulted || s.faultOpcode == 0x8#4 || s.faultOpcode == 0xD#4

/-- The invariant of the state: canonical memory, a clean empty latch, a meaningful fault record. -/
def State.Inv (s : State) : Bool := s.mem.wf && s.latchWf && s.faultWf

/-- An address that is plain storage (20_memory.md R42). -/
def plain (a : Word) : Bool := a != Config.kbsr && a != Config.kbdr

/-- The general registers an instruction may write (40_alu.md, 41_load.md, 43_control.md R95, 44_trap.md R111). -/
def destRegs (i : Instr) : List Reg :=
  match i with
  | .addReg dr _ _ | .addImm dr _ _ | .andReg dr _ _ | .andImm dr _ _ | .not dr _ => [dr]
  | .ld dr _ | .ldi dr _ | .ldr dr _ _ | .lea dr _ => [dr]
  | .jsr _ | .jsrr _ | .out | .puts | .putsp | .halt => [7]
  | .getc | .inp => [7, 0]
  | .trap v => if v = 0x20#8 ∨ v = 0x23#8 then [7, 0] else [7]
  | .br _ _ _ _ | .nop _ | .st _ _ | .sti _ _ | .str _ _ _ | .jmp _ | .ret | .rti | .res => []

/-- The register whose new value sets the flags, for the nine operations that update them (10_state.md R16). -/
def flagReg (i : Instr) : Option Reg :=
  match i with
  | .addReg dr _ _ | .addImm dr _ _ | .andReg dr _ _ | .andImm dr _ _ | .not dr _ => some dr
  | .ld dr _ | .ldi dr _ | .ldr dr _ _ | .lea dr _ => some dr
  | .getc | .inp => some 0
  | .trap v => if v = 0x20#8 ∨ v = 0x23#8 then some 0 else none
  | .br _ _ _ _ | .nop _ | .st _ _ | .sti _ _ | .str _ _ _ | .jmp _ | .ret | .jsr _ | .jsrr _ | .rti | .res
  | .out | .puts | .putsp | .halt => none

/-- The address an instruction stores to, computed in the state it executes in (42_store.md R86, R87, R88). -/
def storeAddr (i : Instr) (s : State) : Option Word :=
  match i with
  | .st _ off => some (s.pcRel9 off)
  | .sti _ off => some (s.pointer9 off).1
  | .str _ base off => some (s.baseOff base off)
  | .br _ _ _ _ | .nop _ | .addReg _ _ _ | .addImm _ _ _ | .ld _ _ | .jsr _ | .jsrr _ | .andReg _ _ _
  | .andImm _ _ _ | .ldr _ _ _ | .rti | .not _ _ | .ldi _ _ | .jmp _ | .ret | .res | .lea _ _ | .trap _
  | .getc | .out | .puts | .inp | .putsp | .halt => none

/-- Whether an instruction may read data through the bus, and so may touch the keyboard latch
(20_memory.md R30, R40). -/
def readsData (i : Instr) : Bool :=
  match i with
  | .ld _ _ | .ldi _ _ | .ldr _ _ _ | .sti _ _ | .getc | .inp | .puts | .putsp => true
  | .trap v => v = 0x20#8 || v = 0x22#8 || v = 0x23#8 || v = 0x24#8
  | .br _ _ _ _ | .nop _ | .addReg _ _ _ | .addImm _ _ _ | .st _ _ | .jsr _ | .jsrr _ | .andReg _ _ _
  | .andImm _ _ _ | .str _ _ _ | .rti | .not _ _ | .jmp _ | .ret | .res | .lea _ _ | .out | .halt => false

/-- The keyboard stream after `n` polls (20_memory.md R48). -/
def Kbd.drop (n : Nat) (k : Kbd) : Kbd :=
  match n with
  | 0 => k
  | n + 1 => k.poll.2.drop n

/-- What poll number `n` (from 0) is answered: no byte, or the byte that is then read (20_memory.md R48). -/
def Kbd.answer (n : Nat) (k : Kbd) : Option Byte := (k.drop n).poll.1

/-- What `n` bus reads give, from address `a` on, one after the other, and the state after them (20_memory.md R32,
R45). -/
def State.readRun (n : Nat) (a : Word) (s : State) : List Word × State :=
  match n with
  | 0 => ([], s)
  | n + 1 =>
    let v := s.memRead a
    let more := v.2.readRun n (a + 1#16)
    (v.1 :: more.1, more.2)

/-- Two states that no instruction can tell apart: equal but for the two cells behind the keyboard registers
(20_memory.md R36), the byte of an empty latch (10_state.md R21), and how the other cells are listed. -/
def State.SameSeen (s t : State) : Prop :=
  s.regs = t.regs ∧ s.pc = t.pc ∧ s.cond = t.cond ∧ s.run = t.run ∧ s.faultOpcode = t.faultOpcode ∧
  s.kbdReady = t.kbdReady ∧ (s.kbdReady = true → s.kbdByte = t.kbdByte) ∧
  s.kbd = t.kbd ∧ s.out = t.out ∧
  ∀ a, plain a = true → s.mem.read a = t.mem.read a

end Sys2Proof.Machine
end

