-- ==== Sys2Proof/Certificates/Slice0/Obligations.lean ====
section
/-!
DEFINITION. Obligations.lean: the statements for the provers, each from a numbered rule of spec/.
`exec i s` runs in a state whose `pc` is already incremented (10_state.md R13): where the instruction was fetched from
`a`, `s.pc` is `a + 1`. A record update names every field that changes, so all others are unchanged.
-/

open Sys2Proof Sys2Proof.Machine

/-! ## Encoding -/

/-- 30_encoding.md R53, R56, R63: no bit of an encoding is dropped. Which constructor
owns a word is the model's choice (log entry 5), and so is what the encoder writes in the ignored bits of the reserved
opcode (log entry 11). -/
def Obligations.DecodeUndoesEncode : Prop :=
  ∀ i : Instr, WellFormed i = true → decode (encode i) = i

/-- 30_encoding.md R51, R56, R57: every word is read as a well-formed instruction, and encoding that instruction gives
the word back but for the bits its format ignores. That they are ignored is the spec's decision D5 (log entry 7). -/
def Obligations.EncodeUndoesDecode : Prop :=
  ∀ w : Word, WellFormed (decode w) = true ∧
    encode (decode w) &&& ~~~ignoredBits w = w &&& ~~~ignoredBits w

/-- 30_encoding.md R57: the bits each format ignores, listed as the rule lists them, change nothing. The
spec's decision D5 (log entry 7). -/
def Obligations.IgnoredBitsChangeNothing : Prop :=
  ∀ w x m : Word,
    ((w.extractLsb' 12 4 = 0x1#4 ∨ w.extractLsb' 12 4 = 0x5#4) ∧ w.getLsbD 5 = false ∧ m = 0x0018#16) ∨
    (w.extractLsb' 12 4 = 0x9#4 ∧ m = 0x003F#16) ∨
    (w.extractLsb' 12 4 = 0xC#4 ∧ m = 0x0E3F#16) ∨
    (w.extractLsb' 12 4 = 0x4#4 ∧ w.getLsbD 11 = false ∧ m = 0x063F#16) ∨
    (w.extractLsb' 12 4 = 0xF#4 ∧ m = 0x0F00#16) ∨
    ((w.extractLsb' 12 4 = 0x8#4 ∨ w.extractLsb' 12 4 = 0xD#4) ∧ m = 0x0FFF#16) →
    decode (w ^^^ (x &&& m)) = decode w

/-- 30_encoding.md R51, R52, R53, R60: the opcode map with the fields of each format, for every word. The names of the
narrower rows (NOP, RET and the six trap routines) are R62's and 44_trap.md R101's. The spec's
decisions D1, D2, D4; the narrower constructors are the model's choice (log entry 5). -/
def Obligations.OpcodeSelectsInstruction : Prop :=
  ∀ w : Word,
    let op := w.extractLsb' 12 4
    let r9 : Reg := (w.extractLsb' 9 3).toFin
    let r6 : Reg := (w.extractLsb' 6 3).toFin
    let r0 : Reg := (w.extractLsb' 0 3).toFin
    let n := w.getLsbD 11
    let z := w.getLsbD 10
    let p := w.getLsbD 9
    let v := w.extractLsb' 0 8
    (op = 0x0#4 → decode w = if n || z || p then .br n z p (w.extractLsb' 0 9) else .nop (w.extractLsb' 0 9)) ∧
    (op = 0x1#4 → decode w = if w.getLsbD 5 then .addImm r9 r6 (w.extractLsb' 0 5) else .addReg r9 r6 r0) ∧
    (op = 0x2#4 → decode w = .ld r9 (w.extractLsb' 0 9)) ∧
    (op = 0x3#4 → decode w = .st r9 (w.extractLsb' 0 9)) ∧
    (op = 0x4#4 → decode w = if w.getLsbD 11 then .jsr (w.extractLsb' 0 11) else .jsrr r6) ∧
    (op = 0x5#4 → decode w = if w.getLsbD 5 then .andImm r9 r6 (w.extractLsb' 0 5) else .andReg r9 r6 r0) ∧
    (op = 0x6#4 → decode w = .ldr r9 r6 (w.extractLsb' 0 6)) ∧
    (op = 0x7#4 → decode w = .str r9 r6 (w.extractLsb' 0 6)) ∧
    (op = 0x8#4 → decode w = .rti) ∧
    (op = 0x9#4 → decode w = .not r9 r6) ∧
    (op = 0xA#4 → decode w = .ldi r9 (w.extractLsb' 0 9)) ∧
    (op = 0xB#4 → decode w = .sti r9 (w.extractLsb' 0 9)) ∧
    (op = 0xC#4 → decode w = if r6 = 7 then .ret else .jmp r6) ∧
    (op = 0xD#4 → decode w = .res) ∧
    (op = 0xE#4 → decode w = .lea r9 (w.extractLsb' 0 9)) ∧
    (op = 0xF#4 → decode w =
      if v = 0x20#8 then .getc else if v = 0x21#8 then .out else if v = 0x22#8 then .puts
      else if v = 0x23#8 then .inp else if v = 0x24#8 then .putsp else if v = 0x25#8 then .halt else .trap v)

/-- The decode vectors of 95_test_vectors.md section 2.11. -/
def Obligations.DecodeVectors : Prop :=
  decode 0x0000#16 = .nop 0#9 ∧
  decode 0x107D#16 = .addImm 0 1 0b11101#5 ∧
  decode 0x1042#16 = .addReg 0 1 2 ∧
  decode 0x2407#16 = .ld 2 0x007#9 ∧
  decode 0x3005#16 = .st 0 0x005#9 ∧
  decode 0x4803#16 = .jsr 0x003#11 ∧
  decode 0x41C0#16 = .jsrr 7 ∧
  decode 0x5020#16 = .andImm 0 0 0b00000#5 ∧
  decode 0x6640#16 = .ldr 3 1 0b000000#6 ∧
  decode 0x75BF#16 = .str 2 6 0b111111#6 ∧
  decode 0x8000#16 = .rti ∧
  decode 0x94BF#16 = .not 2 2 ∧
  decode 0xA204#16 = .ldi 1 0x004#9 ∧
  decode 0xB008#16 = .sti 0 0x008#9 ∧
  decode 0xC1C0#16 = .ret ∧
  decode 0xD000#16 = .res ∧
  decode 0xE20A#16 = .lea 1 0x00A#9 ∧
  decode 0xF025#16 = .halt

/-- 30_encoding.md R54, for the four widths the machine uses, on the low bits of a 16-bit value; with the source's own
values. -/
def Obligations.SignExtension : Prop :=
  (∀ v : Word,
    (sext (v.setWidth 5)).toNat =
      (if v.toNat % 2 ^ 5 < 2 ^ 4 then v.toNat % 2 ^ 5 else v.toNat % 2 ^ 5 + 65536 - 2 ^ 5) ∧
    (sext (v.setWidth 6)).toNat =
      (if v.toNat % 2 ^ 6 < 2 ^ 5 then v.toNat % 2 ^ 6 else v.toNat % 2 ^ 6 + 65536 - 2 ^ 6) ∧
    (sext (v.setWidth 9)).toNat =
      (if v.toNat % 2 ^ 9 < 2 ^ 8 then v.toNat % 2 ^ 9 else v.toNat % 2 ^ 9 + 65536 - 2 ^ 9) ∧
    (sext (v.setWidth 11)).toNat =
      (if v.toNat % 2 ^ 11 < 2 ^ 10 then v.toNat % 2 ^ 11 else v.toNat % 2 ^ 11 + 65536 - 2 ^ 11)) ∧
  sext 0b11111#5 = 0xFFFF#16 ∧ sext 0b01111#5 = 0x000F#16 ∧
  sext 0#5 = 0#16 ∧ sext 0#6 = 0#16 ∧ sext 0#9 = 0#16 ∧ sext 0#11 = 0#16

/-! ## State -/

/-- 70_reset_and_hazards.md R140, 10_state.md R24 to R28: what reset leaves, for every ORIGIN, MEM_INIT and KBD
(00_scope.md R6). The byte 0 of the empty latch is the spec's decision D10 (log entry 7). -/
def Obligations.ResetValues : Prop :=
  ∀ (origin : Word) (memInit : Memory) (kbd : Kbd),
    let s := State.resetWith origin memInit kbd
    (∀ r : Reg, s.reg r = 0x0000#16) ∧ s.pc = origin ∧ s.cond = .zero ∧ s.mem = memInit ∧
    s.kbdReady = false ∧ s.kbdByte = 0x00#8 ∧ s.run = .running ∧ s.out = [] ∧ s.kbd = kbd

/-- 10_state.md R10, R11: eight independent registers, none hard-wired. -/
def Obligations.RegisterFileStores : Prop :=
  ∀ (s : State) (d r : Reg) (v : Word),
    (s.setReg d v).reg r = (if r = d then v else s.reg r) ∧
    s.setReg d v = { s with regs := (s.setReg d v).regs }

/-- 10_state.md R17, with the ranges its last sentence gives. -/
def Obligations.FlagRule : Prop :=
  ∀ (s : State) (v : Word),
    s.setcc v = { s with cond :=
      if v = 0x0000#16 then .zero else if v.getLsbD 15 = true then .negative else .positive } ∧
    ((s.setcc v).cond = .zero ↔ v = 0x0000#16) ∧
    ((s.setcc v).cond = .positive ↔ 0x0001 ≤ v.toNat ∧ v.toNat ≤ 0x7FFF) ∧
    ((s.setcc v).cond = .negative ↔ 0x8000 ≤ v.toNat)

/-! ## Arithmetic and logic -/

/-- 40_alu.md R70. -/
def Obligations.AddRegister : Prop :=
  (∀ w : Word, w.extractLsb' 12 4 = 0x1#4 → w.getLsbD 5 = false →
    decode w = .addReg (w.extractLsb' 9 3).toFin (w.extractLsb' 6 3).toFin (w.extractLsb' 0 3).toFin) ∧
  ∀ (dr sr1 sr2 : Reg) (s : State),
    exec (.addReg dr sr1 sr2) s = .next { s with
      regs := s.regs.set dr (s.reg sr1 + s.reg sr2), cond := flagOf (s.reg sr1 + s.reg sr2) }

/-- 40_alu.md R71. -/
def Obligations.AddImmediate : Prop :=
  (∀ w : Word, w.extractLsb' 12 4 = 0x1#4 → w.getLsbD 5 = true →
    decode w = .addImm (w.extractLsb' 9 3).toFin (w.extractLsb' 6 3).toFin (w.extractLsb' 0 5)) ∧
  ∀ (dr sr1 : Reg) (imm : BitVec 5) (s : State),
    exec (.addImm dr sr1 imm) s = .next { s with
      regs := s.regs.set dr (s.reg sr1 + sext imm), cond := flagOf (s.reg sr1 + sext imm) }

/-- 40_alu.md R72. -/
def Obligations.AndRegister : Prop :=
  (∀ w : Word, w.extractLsb' 12 4 = 0x5#4 → w.getLsbD 5 = false →
    decode w = .andReg (w.extractLsb' 9 3).toFin (w.extractLsb' 6 3).toFin (w.extractLsb' 0 3).toFin) ∧
  ∀ (dr sr1 sr2 : Reg) (s : State),
    exec (.andReg dr sr1 sr2) s = .next { s with
      regs := s.regs.set dr (s.reg sr1 &&& s.reg sr2), cond := flagOf (s.reg sr1 &&& s.reg sr2) }

/-- 40_alu.md R73. -/
def Obligations.AndImmediate : Prop :=
  (∀ w : Word, w.extractLsb' 12 4 = 0x5#4 → w.getLsbD 5 = true →
    decode w = .andImm (w.extractLsb' 9 3).toFin (w.extractLsb' 6 3).toFin (w.extractLsb' 0 5)) ∧
  ∀ (dr sr1 : Reg) (imm : BitVec 5) (s : State),
    exec (.andImm dr sr1 imm) s = .next { s with
      regs := s.regs.set dr (s.reg sr1 &&& sext imm), cond := flagOf (s.reg sr1 &&& sext imm) }

/-- 40_alu.md R74. -/
def Obligations.NotComplements : Prop :=
  (∀ w : Word, w.extractLsb' 12 4 = 0x9#4 →
    decode w = .not (w.extractLsb' 9 3).toFin (w.extractLsb' 6 3).toFin) ∧
  ∀ (dr sr : Reg) (s : State),
    exec (.not dr sr) s = .next { s with
      regs := s.regs.set dr (0xFFFF#16 - s.reg sr), cond := flagOf (0xFFFF#16 - s.reg sr) }

/-! ## Loads and stores -/

/-- 41_load.md R80: `v.1` is the word the bus gives at the effective address, `v.2` the state after that read. -/
def Obligations.LoadPcRelative : Prop :=
  (∀ w : Word, w.extractLsb' 12 4 = 0x2#4 → decode w = .ld (w.extractLsb' 9 3).toFin (w.extractLsb' 0 9)) ∧
  ∀ (dr : Reg) (off : BitVec 9) (s : State),
    let v := s.memRead (s.pc + sext off)
    exec (.ld dr off) s = .next { v.2 with regs := s.regs.set dr v.1, cond := flagOf v.1 }

/-- 41_load.md R81: `p` is the pointer read, `v` the data read after it. -/
def Obligations.LoadIndirect : Prop :=
  (∀ w : Word, w.extractLsb' 12 4 = 0xA#4 → decode w = .ldi (w.extractLsb' 9 3).toFin (w.extractLsb' 0 9)) ∧
  ∀ (dr : Reg) (off : BitVec 9) (s : State),
    let p := s.memRead (s.pc + sext off)
    let v := p.2.memRead p.1
    exec (.ldi dr off) s = .next { v.2 with regs := s.regs.set dr v.1, cond := flagOf v.1 }

/-- 41_load.md R82: the base register is read before the destination is written. -/
def Obligations.LoadBaseOffset : Prop :=
  (∀ w : Word, w.extractLsb' 12 4 = 0x6#4 →
    decode w = .ldr (w.extractLsb' 9 3).toFin (w.extractLsb' 6 3).toFin (w.extractLsb' 0 6)) ∧
  ∀ (dr base : Reg) (off : BitVec 6) (s : State),
    let v := s.memRead (s.reg base + sext off)
    exec (.ldr dr base off) s = .next { v.2 with regs := s.regs.set dr v.1, cond := flagOf v.1 }

/-- 41_load.md R83: the address itself, whatever stands there and with no read. The spec's decision D6
(log entry 7). -/
def Obligations.LoadEffectiveAddress : Prop :=
  (∀ w : Word, w.extractLsb' 12 4 = 0xE#4 → decode w = .lea (w.extractLsb' 9 3).toFin (w.extractLsb' 0 9)) ∧
  ∀ (dr : Reg) (off : BitVec 9) (s : State),
    exec (.lea dr off) s = .next { s with
      regs := s.regs.set dr (s.pc + sext off), cond := flagOf (s.pc + sext off) }

/-- 42_store.md R86. -/
def Obligations.StorePcRelative : Prop :=
  (∀ w : Word, w.extractLsb' 12 4 = 0x3#4 → decode w = .st (w.extractLsb' 9 3).toFin (w.extractLsb' 0 9)) ∧
  ∀ (sr : Reg) (off : BitVec 9) (s : State), ∃ t,
    exec (.st sr off) s = .next t ∧ t = { s with mem := t.mem } ∧
    ∀ a, t.mem.read a = if a = s.pc + sext off then s.reg sr else s.mem.read a

/-- 42_store.md R87: `p` is the pointer read, whose side effects stay. -/
def Obligations.StoreIndirect : Prop :=
  (∀ w : Word, w.extractLsb' 12 4 = 0xB#4 → decode w = .sti (w.extractLsb' 9 3).toFin (w.extractLsb' 0 9)) ∧
  ∀ (sr : Reg) (off : BitVec 9) (s : State), ∃ t,
    let p := s.memRead (s.pc + sext off)
    exec (.sti sr off) s = .next t ∧ t = { p.2 with mem := t.mem } ∧
    ∀ a, t.mem.read a = if a = p.1 then s.reg sr else s.mem.read a

/-- 42_store.md R88. -/
def Obligations.StoreBaseOffset : Prop :=
  (∀ w : Word, w.extractLsb' 12 4 = 0x7#4 →
    decode w = .str (w.extractLsb' 9 3).toFin (w.extractLsb' 6 3).toFin (w.extractLsb' 0 6)) ∧
  ∀ (sr base : Reg) (off : BitVec 6) (s : State), ∃ t,
    exec (.str sr base off) s = .next t ∧ t = { s with mem := t.mem } ∧
    ∀ a, t.mem.read a = if a = s.reg base + sext off then s.reg sr else s.mem.read a

/-! ## Control transfer -/

/-- 43_control.md R90: BR, and NOP, which is BR with no condition bit. That NOP is a constructor, at every offset, is
the model's choice (log entry 5); the pairing of condition bits with flags is the spec's decision D3 and the target
that is not dereferenced its decision D6 (log entry 7). -/
def Obligations.BranchTakenOnCondition : Prop :=
  (∀ w : Word, w.extractLsb' 12 4 = 0x0#4 → decode w =
    if w.getLsbD 11 || w.getLsbD 10 || w.getLsbD 9
    then .br (w.getLsbD 11) (w.getLsbD 10) (w.getLsbD 9) (w.extractLsb' 0 9) else .nop (w.extractLsb' 0 9)) ∧
  (∀ (n z p : Bool) (off : BitVec 9) (s : State),
    exec (.br n z p off) s = .next
      (if (n = true ∧ s.cond = .negative) ∨ (z = true ∧ s.cond = .zero) ∨ (p = true ∧ s.cond = .positive)
       then { s with pc := s.pc + sext off } else s)) ∧
  ∀ (off : BitVec 9) (s : State), exec (.nop off) s = .next s

/-- 43_control.md R91: JMP, and RET, which is JMP through R7. That RET is a constructor is the model's choice
(log entry 5). -/
def Obligations.JumpThroughRegister : Prop :=
  (∀ w : Word, w.extractLsb' 12 4 = 0xC#4 → decode w =
    if (w.extractLsb' 6 3).toFin = (7 : Reg) then .ret else .jmp (w.extractLsb' 6 3).toFin) ∧
  (∀ (base : Reg) (s : State), exec (.jmp base) s = .next { s with pc := s.reg base }) ∧
  ∀ s : State, exec .ret s = .next { s with pc := s.reg 7 }

/-- 43_control.md R93. -/
def Obligations.CallPcRelative : Prop :=
  (∀ w : Word, w.extractLsb' 12 4 = 0x4#4 → w.getLsbD 11 = true → decode w = .jsr (w.extractLsb' 0 11)) ∧
  ∀ (off : BitVec 11) (s : State),
    exec (.jsr off) s = .next { s with regs := s.regs.set 7 s.pc, pc := s.pc + sext off }

/-- 43_control.md R94: R7 is written first, so `JSRR R7` goes on after itself. The spec's decision D14. -/
def Obligations.CallThroughRegister : Prop :=
  (∀ w : Word, w.extractLsb' 12 4 = 0x4#4 → w.getLsbD 11 = false → decode w = .jsrr (w.extractLsb' 6 3).toFin) ∧
  ∀ (base : Reg) (s : State),
    exec (.jsrr base) s = .next { s with
      regs := s.regs.set 7 s.pc, pc := if base = 7 then s.pc else s.reg base }

/-- 43_control.md R97: where each instruction leaves `pc`. The spec's own derivation from R13 and R90 to R94. -/
def Obligations.PcAfterEveryInstruction : Prop :=
  ∀ (i : Instr) (s t : State), exec i s = .next t →
    (match i with
      | .br n z p off =>
        t.pc = if (n = true ∧ s.cond = .negative) ∨ (z = true ∧ s.cond = .zero) ∨ (p = true ∧ s.cond = .positive)
          then s.pc + sext off else s.pc
      | .jmp base => t.pc = s.reg base
      | .ret => t.pc = s.reg 7
      | .jsr off => t.pc = s.pc + sext off
      | .jsrr base => t.pc = if base = 7 then s.pc else s.reg base
      | .rti | .res => t.pc = s.pc ∧ t.run = .faulted
      | _ => t.pc = s.pc)

/-! ## TRAP and its routines -/

/-- 44_trap.md R101: TRAP with a routine's vector is that routine. -/
def Obligations.TrapVectorsNameTheRoutines : Prop :=
  ∀ s : State,
    exec (.trap 0x20#8) s = exec .getc s ∧ exec (.trap 0x21#8) s = exec .out s ∧
    exec (.trap 0x22#8) s = exec .puts s ∧ exec (.trap 0x23#8) s = exec .inp s ∧
    exec (.trap 0x24#8) s = exec .putsp s ∧ exec (.trap 0x25#8) s = exec .halt s

/-- 44_trap.md R110: an unknown vector writes R7 and does nothing else. -/
def Obligations.UnknownTrapOnlyLinks : Prop :=
  ∀ (vect : BitVec 8) (s : State), vect.toNat < 0x20 ∨ 0x25 < vect.toNat →
    exec (.trap vect) s = .next { s with regs := s.regs.set 7 s.pc }

/-- 44_trap.md R103, R104: GETC returns the latched byte, or else the first byte that a poll is answered with, after
any number `k` of polls that fail. The stream as data is the model's form (log entry 3). -/
def Obligations.GetcTakesNextKey : Prop :=
  ∀ (s : State) (k : Nat) (b : Byte),
    let t : State := { s with
      regs := (s.regs.set 7 s.pc).set 0 (b.setWidth 16), cond := if b = 0x00#8 then .zero else .positive,
      kbdReady := false, kbdByte := 0x00#8 }
    (s.kbdReady = true → s.kbdByte = b → exec .getc s = .next t) ∧
    (s.kbdReady = false → (∀ j, j < k → s.kbd.answer j = none) → s.kbd.answer k = some b →
      exec .getc s = .next { t with kbd := s.kbd.drop (k + 1) })

/-- 44_trap.md R103, R107: IN is GETC with the prompt before the wait and the echo after it. The stream as data is the
model's form (log entry 3). -/
def Obligations.InPromptsTakesEchoes : Prop :=
  ∀ (s : State) (k : Nat) (b : Byte),
    let t : State := { s with
      regs := (s.regs.set 7 s.pc).set 0 (b.setWidth 16), cond := if b = 0x00#8 then .zero else .positive,
      kbdReady := false, kbdByte := 0x00#8, out := s.out ++ Config.inPrompt ++ [b] }
    (s.kbdReady = true → s.kbdByte = b → exec .inp s = .next t) ∧
    (s.kbdReady = false → (∀ j, j < k → s.kbd.answer j = none) → s.kbd.answer k = some b →
      exec .inp s = .next { t with kbd := s.kbd.drop (k + 1) })

/-- 44_trap.md R103, R107: with no byte latched and every poll to come failing, GETC and IN never complete; R7 is
written, the prompt of IN is out, and the stream is silent for ever. The faults are the model's form of a step that
does not exist (log entry 10). -/
def Obligations.KeyWaitWithoutKeysHangs : Prop :=
  ∀ s : State, s.kbdReady = false → (∀ j, s.kbd.answer j = none) →
    exec .getc s = .fault (.keyWait { s with
      regs := s.regs.set 7 s.pc, kbd := { now := [], rest := .silent } }) ∧
    exec .inp s = .fault (.keyWait { s with
      regs := s.regs.set 7 s.pc, kbd := { now := [], rest := .silent }, out := s.out ++ Config.inPrompt })

/-- 44_trap.md R105. -/
def Obligations.OutEmitsLowByte : Prop :=
  ∀ s : State, exec .out s = .next { s with
    regs := s.regs.set 7 s.pc, out := s.out ++ [(s.reg 0).extractLsb' 0 8] }

/-- 44_trap.md R106, R112: PUTS emits the low byte of each word its bus reads give, up to a zero word, wherever the
string lies (at a keyboard address the word is the keyboard's answer); and, said of cells, a string of `n` non-zero
plain cells and then a zero cell is emitted and nothing but R7 and the output changes. That the scan's reads are
intercepted is the spec's decision D13 (log entry 7). -/
def Obligations.PutsEmitsString : Prop :=
  (∀ (s : State) (ws : List Word),
    let r := s.readRun (ws.length + 1) (s.reg 0)
    r.1 = ws ++ [0x0000#16] → (∀ w, w ∈ ws → w ≠ 0x0000#16) →
    exec .puts s = .next { r.2 with
      regs := s.regs.set 7 s.pc, out := s.out ++ ws.map fun w => w.extractLsb' 0 8 }) ∧
  ∀ (s : State) (n : Nat),
    let cell : Nat → Word := fun k => s.reg 0 + BitVec.ofNat 16 k
    (∀ k, k ≤ n → plain (cell k) = true) → (∀ k, k < n → s.mem.read (cell k) ≠ 0x0000#16) →
    s.mem.read (cell n) = 0x0000#16 →
    exec .puts s = .next { s with
      regs := s.regs.set 7 s.pc,
      out := s.out ++ (List.range n).map fun k => (s.mem.read (cell k)).extractLsb' 0 8 }

/-- 44_trap.md R108, R112: PUTSP emits both bytes of each word its bus reads give, low byte first, up to a zero byte,
wherever the string lies (at a keyboard address the word is the keyboard's answer); and, said of cells, `n` plain
cells with two non-zero bytes each and then a plain cell with a zero byte are emitted up to that byte and nothing but
R7 and the output changes. That the scan's reads are intercepted is the spec's decision D13 (log entry 7). -/
def Obligations.PutspEmitsString : Prop :=
  (∀ (s : State) (ws : List Word) (z : Word),
    let r := s.readRun (ws.length + 1) (s.reg 0)
    r.1 = ws ++ [z] → (∀ w, w ∈ ws → w.extractLsb' 0 8 ≠ 0x00#8 ∧ w.extractLsb' 8 8 ≠ 0x00#8) →
    z.extractLsb' 0 8 = 0x00#8 ∨ z.extractLsb' 8 8 = 0x00#8 →
    exec .putsp s = .next { r.2 with
      regs := s.regs.set 7 s.pc,
      out := s.out ++ ws.flatMap (fun w => [w.extractLsb' 0 8, w.extractLsb' 8 8]) ++
        if z.extractLsb' 0 8 = 0x00#8 then [] else [z.extractLsb' 0 8] }) ∧
  ∀ (s : State) (n : Nat),
    let cell : Nat → Word := fun k => s.reg 0 + BitVec.ofNat 16 k
    let lo : Nat → Byte := fun k => (s.mem.read (cell k)).extractLsb' 0 8
    let hi : Nat → Byte := fun k => (s.mem.read (cell k)).extractLsb' 8 8
    (∀ k, k ≤ n → plain (cell k) = true) → (∀ k, k < n → lo k ≠ 0x00#8 ∧ hi k ≠ 0x00#8) →
    lo n = 0x00#8 ∨ hi n = 0x00#8 →
    exec .putsp s = .next { s with
      regs := s.regs.set 7 s.pc,
      out := s.out ++ (List.range n).flatMap (fun k => [lo k, hi k]) ++ if lo n = 0x00#8 then [] else [lo n] }

/-- 44_trap.md R108, R112 with 20_memory.md R33: PUTSP ends from every state, since a scan that goes round reads 0xFE00,
whose low byte is always zero. It rests wholly on two decisions that the spec marks as its own, both in log entry 7:
the low fifteen bits of the status word are 0 (D8), and the scan is intercepted (D13). R113 and 70_reset_and_hazards.md
R144 speak of a PUTSP that never ends; under D8 and D13 there is none. -/
def Obligations.PutspAlwaysEnds : Prop :=
  ∀ s : State, ∃ t, exec .putsp s = .next t

/-- 44_trap.md R106, R112 with 20_memory.md R33: with no byte latched and every poll to come failing PUTS ends, since
a scan that goes round reads 0xFE00, which is then a zero cell. That the scan is intercepted is the spec's decision D13
(log entry 7). -/
def Obligations.PutsEndsWithoutKeys : Prop :=
  ∀ s : State, s.kbdReady = false → (∀ j, s.kbd.answer j = none) → ∃ t, exec .puts s = .next t

/-- 44_trap.md R113: PUTS never completes where no plain cell is zero, a non-zero byte is latched and every poll to
come delivers a non-zero byte. That the scan is intercepted and that it never ends are the spec's decisions D13 and D21
(log entry 7). The faults are the model's form of a step that does not exist (log entry 10). -/
def Obligations.PutsWithoutTerminatorHangs : Prop :=
  ∀ s : State, (∀ a, plain a = true → s.mem.read a ≠ 0x0000#16) → s.kbdReady = true → s.kbdByte ≠ 0x00#8 →
    (∀ j, ∃ b, s.kbd.answer j = some b ∧ b ≠ 0x00#8) →
    exec .puts s = .fault .endlessString

/-- 44_trap.md R113: PUTS is said to go on for ever only where no number of cells ends its scan, and only where the
terminal has non-zero keys ready for ever; the bound that the model searches up to (log entry 9) hides no
terminator. That the scan is intercepted and that it never ends are the spec's decisions D13 and D21 (log entry 7). -/
def Obligations.EndlessStringNeverEnds : Prop :=
  ∀ s : State, exec .puts s = .fault .endlessString →
    (∀ fuel, scanPuts fuel (s.reg 0) s.link = none) ∧ ∃ id pos, s.kbd.rest = .steady id pos

/-- 44_trap.md R109, with 10_state.md R18: HALT stops the machine, and no step follows. The faults
are the model's form of a step that does not exist (log entry 10). -/
def Obligations.HaltStopsTheMachine : Prop :=
  ∀ s : State, ∃ t, exec .halt s = .next t ∧
    t = { s with regs := s.regs.set 7 s.pc, out := s.out ++ Config.haltText, run := .halted } ∧
    step t = .fault .halted

/-! ## The unimplemented opcodes -/

/-- 45_unimplemented.md R115, R116, 60_exceptions.md R121: both opcodes, whatever their low twelve bits, raise the one
exception, which records the opcode and stops the machine. The faults
are the model's form of a step that does not exist (log entry 10). -/
def Obligations.UnimplementedOpcodesFault : Prop :=
  (∀ w : Word, w.extractLsb' 12 4 = 0x8#4 → decode w = .rti) ∧
  (∀ w : Word, w.extractLsb' 12 4 = 0xD#4 → decode w = .res) ∧
  ∀ s : State,
    exec .rti s = .next { s with faultOpcode := 0x8#4, run := .faulted } ∧
    step { s with faultOpcode := 0x8#4, run := .faulted } = .fault (.faulted 0x8#4) ∧
    exec .res s = .next { s with faultOpcode := 0xD#4, run := .faulted } ∧
    step { s with faultOpcode := 0xD#4, run := .faulted } = .fault (.faulted 0xD#4)

/-! ## The bus and the keyboard registers -/

/-- 20_memory.md R32, R37, R42: the address decoder of every read; plain storage has no side effect. -/
def Obligations.BusReadDecodesAddress : Prop :=
  ∀ (s : State) (a : Word),
    s.memRead a =
      if a = 0xFE00#16 then s.kbsrRead else if a = 0xFE02#16 then s.kbdrRead else (s.mem.read a, s)

/-- 20_memory.md R33, one clause for each answer the terminal can give (R48). The stream as data is the model's form
(log entry 3); that the low fifteen bits are 0 is the spec's decision D8 (log entry 7). -/
def Obligations.StatusReadPollsAndLatches : Prop :=
  ∀ s : State,
    (s.kbdReady = true → s.memRead 0xFE00#16 = (0x8000#16, s)) ∧
    (∀ more, s.kbdReady = false → s.kbd.now = .notReady :: more →
      s.memRead 0xFE00#16 = (0x0000#16, { s with kbd := { s.kbd with now := more } })) ∧
    (∀ b more, s.kbdReady = false → s.kbd.now = .ready b :: more →
      s.memRead 0xFE00#16 =
        (0x8000#16, { s with kbd := { s.kbd with now := more }, kbdReady := true, kbdByte := b })) ∧
    (s.kbdReady = false → s.kbd = { now := [], rest := .silent } → s.memRead 0xFE00#16 = (0x0000#16, s)) ∧
    (∀ id pos, s.kbdReady = false → s.kbd = { now := [], rest := .steady id pos } →
      s.memRead 0xFE00#16 = (0x8000#16, { s with
        kbd := { now := [], rest := .steady id (pos + 1) },
        kbdReady := true, kbdByte := Config.steadyByte id pos })) ∧
    (∀ id pos, s.kbdReady = false → s.kbd = { now := [], rest := .fitful id pos } →
      s.memRead 0xFE00#16 =
        State.memRead { s with kbd := { now := Config.fitfulAnswers id pos, rest := .fitful id (pos + 1) } } 0xFE00#16)

/-- 20_memory.md R34. The byte 0 left behind is the spec's decision D10 (log entry 7). -/
def Obligations.DataReadClearsLatch : Prop :=
  ∀ s : State,
    (s.kbdReady = true →
      s.memRead 0xFE02#16 = (s.kbdByte.setWidth 16, { s with kbdReady := false, kbdByte := 0x00#8 })) ∧
    (s.kbdReady = false → s.memRead 0xFE02#16 = (0x0000#16, s))

/-- 20_memory.md R35, R36: a write is unconditional storage of one cell, and at the keyboard addresses it changes
nothing that a read gives. -/
def Obligations.WriteIsPlainStorage : Prop :=
  ∀ (s : State) (a v : Word),
    s.memWrite a v = { s with mem := (s.memWrite a v).mem } ∧
    (∀ b, (s.memWrite a v).mem.read b = if b = a then v else s.mem.read b) ∧
    ((s.memWrite a v).memRead 0xFE00#16).1 = (s.memRead 0xFE00#16).1 ∧
    ((s.memWrite a v).memRead 0xFE02#16).1 = (s.memRead 0xFE02#16).1

/-- 10_state.md R21, R22, 20_memory.md R41: the latch fills only in a status read and empties only in a data read, and
an instruction that reads no data leaves it and the input stream alone. -/
def Obligations.LatchMovesOnlyInKeyboardReads : Prop :=
  (∀ (s : State) (a : Word), s.kbdReady = false → (s.memRead a).2.kbdReady = true → a = 0xFE00#16) ∧
  (∀ (s : State) (a : Word), s.kbdReady = true → (s.memRead a).2.kbdReady = false → a = 0xFE02#16) ∧
  ∀ (i : Instr) (s t : State), exec i s = .next t → readsData i = false →
    t.kbdReady = s.kbdReady ∧ t.kbdByte = s.kbdByte ∧ t.kbd = s.kbd

/-- 20_memory.md R49: a fetch from a keyboard address is that keyboard read, and its word is executed. At 0xFE00 with
no byte latched there is a clause for a poll that fails and one for a poll that delivers, whatever the stream, and
then one for each of a silent stream, a listed failed poll, a listed byte and a steady stream. The spec's own
derivation, decision D24, with the word 0x8000 of decision D8 and the byte 0 of decision D10 (log entry 7); the stream
as data is the model's form (log entry 3). -/
def Obligations.FetchFromKeyboardRegisters : Prop :=
  ∀ s : State, s.run = .running →
    (s.pc = 0xFE00#16 → s.kbdReady = true →
      step s = .next { s with pc := 0xFE01#16, faultOpcode := 0x8#4, run := .faulted }) ∧
    (s.pc = 0xFE00#16 → s.kbdReady = false → s.kbd.answer 0 = none →
      step s = .next { s with pc := 0xFE01#16, kbd := s.kbd.drop 1 }) ∧
    (∀ b, s.pc = 0xFE00#16 → s.kbdReady = false → s.kbd.answer 0 = some b →
      step s = .next { s with
        pc := 0xFE01#16, faultOpcode := 0x8#4, run := .faulted,
        kbd := s.kbd.drop 1, kbdReady := true, kbdByte := b }) ∧
    (s.pc = 0xFE00#16 → s.kbdReady = false → s.kbd = { now := [], rest := .silent } →
      step s = .next { s with pc := 0xFE01#16 }) ∧
    (∀ more, s.pc = 0xFE00#16 → s.kbdReady = false → s.kbd.now = .notReady :: more →
      step s = .next { s with pc := 0xFE01#16, kbd := { s.kbd with now := more } }) ∧
    (∀ b more, s.pc = 0xFE00#16 → s.kbdReady = false → s.kbd.now = .ready b :: more →
      step s = .next { s with
        pc := 0xFE01#16, faultOpcode := 0x8#4, run := .faulted,
        kbd := { s.kbd with now := more }, kbdReady := true, kbdByte := b }) ∧
    (∀ id pos, s.pc = 0xFE00#16 → s.kbdReady = false → s.kbd = { now := [], rest := .steady id pos } →
      step s = .next { s with
        pc := 0xFE01#16, faultOpcode := 0x8#4, run := .faulted,
        kbd := { now := [], rest := .steady id (pos + 1) },
        kbdReady := true, kbdByte := Config.steadyByte id pos }) ∧
    (s.pc = 0xFE02#16 → s.kbdReady = true →
      step s = .next { s with pc := 0xFE03#16, kbdReady := false, kbdByte := 0x00#8 }) ∧
    (s.pc = 0xFE02#16 → s.kbdReady = false → step s = .next { s with pc := 0xFE03#16 })

/-- 20_memory.md R47: a store over the next instruction is what the next fetch gives. The spec's own derivation. -/
def Obligations.StoreSeenByNextFetch : Prop :=
  ∀ (s : State) (sr : Reg), s.run = .running → plain s.pc = true → plain (s.pc + 1#16) = true →
    decode (s.mem.read s.pc) = .st sr 0#9 →
    ∃ t, step s = .next t ∧ t.pc = s.pc + 1#16 ∧ t.fetch.1 = s.reg sr

/-! ## The step -/

/-- 10_state.md R29, R18: while the machine runs, a step is one bus read at `pc`, the increment, and the decoded
instruction in that state; otherwise there is no step. The faults
are the model's form of a step that does not exist (log entry 10). -/
def Obligations.StepRunsDecodedInstruction : Prop :=
  ∀ s : State,
    (s.run = .running →
      step s = exec (decode (s.memRead s.pc).1) { (s.memRead s.pc).2 with pc := s.pc + 1#16 }) ∧
    (s.run = .running → plain s.pc = true →
      step s = exec (decode (s.mem.read s.pc)) { s with pc := s.pc + 1#16 }) ∧
    (s.run = .halted → step s = .fault .halted) ∧
    (s.run = .faulted → step s = .fault (.faulted s.faultOpcode))

/-! ## What no instruction does -/

/-- 10_state.md R16: the flags are those of the register the nine flag-updating operations write, and every other
instruction leaves them. -/
def Obligations.FlagsFollowNineOperations : Prop :=
  ∀ (i : Instr) (s t : State), exec i s = .next t →
    (match flagReg i with
      | some r => t.cond = flagOf (t.reg r)
      | none => t.cond = s.cond)

/-- 40_alu.md, 41_load.md, 42_store.md, 43_control.md R95, 44_trap.md R111: no instruction writes a general register but
its destination, and the link register of JSR, JSRR and TRAP. -/
def Obligations.RegistersKeptBut : Prop :=
  ∀ (i : Instr) (s t : State) (r : Reg), exec i s = .next t → r ∉ destRegs i → t.reg r = s.reg r

/-- 42_store.md, 44_trap.md R111, 20_memory.md R41: no instruction changes a cell but the one ST, STI or STR stores
to. -/
def Obligations.MemoryKeptButStoredCell : Prop :=
  ∀ (i : Instr) (s t : State) (a : Word), exec i s = .next t → storeAddr i s ≠ some a →
    t.mem.read a = s.mem.read a

/-- 10_state.md R18, R19: only HALT halts, only the two unimplemented opcodes fault and record. -/
def Obligations.RunConditionTransitions : Prop :=
  ∀ (i : Instr) (s t : State), exec i s = .next t →
    t.run = (if i = .rti ∨ i = .res then .faulted
      else if i = .halt ∨ i = .trap 0x25#8 then .halted else s.run) ∧
    t.faultOpcode = (if i = .rti then 0x8#4 else if i = .res then 0xD#4 else s.faultOpcode)

/-- 44_trap.md R102, 00_scope.md R4: output only grows, and only the trap routines emit. -/
def Obligations.OutputOnlyGrowsByTraps : Prop :=
  ∀ (i : Instr) (s t : State), exec i s = .next t →
    (∃ bs, t.out = s.out ++ bs) ∧
    ((match i with
      | .out | .puts | .inp | .putsp | .halt | .trap _ => False
      | _ => True) → t.out = s.out)

/-- 20_memory.md R48: the input stream is consumed from the front by polls and nothing is put back. The stream as data
is the model's form (log entry 3). -/
def Obligations.InputConsumedFromFront : Prop :=
  ∀ (i : Instr) (s t : State), exec i s = .next t → ∃ n, t.kbd = s.kbd.drop n

/-- 60_exceptions.md R122, 44_trap.md R103, R113: an instruction completes, or waits for a key for ever, or scans a
string for ever; nothing else can stop it. That PUTSP is not among those rests on the spec's decisions D8 and D13, and
that a scan without terminator never ends on D21 (log entry 7). The faults are the model's
form of a step that does not exist (log entry 10). -/
def Obligations.OnlyKeyWaitsAndScansNeverEnd : Prop :=
  ∀ (i : Instr) (s : State),
    (∃ t, exec i s = .next t) ∨
    ((i = .getc ∨ i = .inp ∨ i = .trap 0x20#8 ∨ i = .trap 0x23#8) ∧
      ∃ u, exec i s = .fault (.keyWait u) ∧ u.kbdReady = false ∧ u.kbd = { now := [], rest := .silent }) ∨
    ((i = .puts ∨ i = .trap 0x22#8) ∧ exec i s = .fault .endlessString)

/-- 20_memory.md R36, 10_state.md R21: no program can tell apart two states that differ only in the cells behind the
keyboard registers and in the byte of an empty latch. -/
def Obligations.HiddenStateIsUnobservable : Prop :=
  ∀ s s' t : State, s.SameSeen s' → step s = .next t → ∃ t', step s' = .next t' ∧ t.SameSeen t'

/-! ## Invariants -/

/-- Every step keeps the invariant: canonical memory, a clean empty latch (10_state.md R21, R28; 20_memory.md R34), a
fault record that is one of the two opcodes (10_state.md R19). The canonical
form is the model's (log entry 8). -/
def Obligations.StepKeepsInvariant : Prop :=
  ∀ s t : State, s.Inv = true → step s = .next t → t.Inv = true

/-- The invariant holds after reset, for every ORIGIN, every canonical MEM_INIT and every KBD
(70_reset_and_hazards.md R140). -/
def Obligations.ResetHasInvariant : Prop :=
  State.reset.Inv = true ∧
  ∀ (origin : Word) (memInit : Memory) (kbd : Kbd), memInit.wf = true →
    (State.resetWith origin memInit kbd).Inv = true

/-- Canonical memories that read alike at every address are equal lists (the model's form of 10_state.md R20). -/
def Obligations.CanonicalMemoryIsItsReads : Prop :=
  ∀ m m' : Memory, m.wf = true → m'.wf = true → (∀ a, m.read a = m'.read a) → m = m'

/-- 70_reset_and_hazards.md R142, 10_state.md R25, R27: an image that the model boots is big-endian words, the first of
them the start address, the others the memory from there on; every other cell is zero. Which images are
refused is the model's choice (log entry 6). -/
def Obligations.BootLoadsImage : Prop :=
  ∀ (bytes : List Byte) (kbd : Kbd) (s : State), bootImage bytes kbd = some s →
    ∃ (origin : Word) (ws : List Word),
      bytes = (origin :: ws).flatMap (fun w => [w.extractLsb' 8 8, w.extractLsb' 0 8]) ∧
      s = State.resetWith origin s.mem kbd ∧
      (∀ (k : Nat) (h : k < ws.length), s.mem.read (origin + BitVec.ofNat 16 k) = ws[k]) ∧
      (∀ a, (∀ k, k < ws.length → a ≠ origin + BitVec.ofNat 16 k) → s.mem.read a = 0x0000#16) ∧
      s.Inv = true
end

