-- ==== Sys2Proof/Laws/Decode.lean ====
section
/-!
SUPPORT. Laws/Decode.lean: the fields of a word, and how the decoder reads one once its opcode is known.
-/

namespace Sys2Proof.Laws

/-- A field of a word is known from its bits. -/
theorem field_ext {n : Nat} (w : Word) (lo : Nat) (v : BitVec n)
    (h : ∀ i, i < n → w.getLsbD (lo + i) = v.getLsbD i) : w.extractLsb' lo n = v := by
  apply BitVec.eq_of_getLsbD_eq
  intro i hi
  simp only [BitVec.getLsbD_extractLsb', hi, decide_true, Bool.true_and]
  exact h i hi

/-- A register index read from a word is known from its bits. -/
theorem reg_ext (w : Word) (lo : Nat) (r : Reg)
    (h : ∀ i, i < 3 → w.getLsbD (lo + i) = (BitVec.ofFin r : BitVec 3).getLsbD i) :
    (w.extractLsb' lo 3).toFin = r := by
  rw [field_ext w lo (BitVec.ofFin r : BitVec 3) h]

/-- The bits of a field that was put in place (30_encoding.md R63). -/
theorem getLsbD_put {n : Nat} (v : BitVec n) (lo i : Nat) :
    (put v lo).getLsbD i = (decide (i < 16) && (decide (lo ≤ i) && v.getLsbD (i - lo))) := by
  simp only [put, BitVec.getLsbD_shiftLeft, BitVec.getLsbD_setWidth]
  by_cases h : i < lo
  · simp [h, Nat.not_le.mpr h]
  · by_cases h16 : i < 16
    · have hle : i - lo < 16 := by omega
      simp [h, h16, hle, Nat.not_lt.mp h]
    · simp [h16]

/-- A word with a known opcode is read under that opcode (30_encoding.md R60). -/
theorem decode_op {w : Word} {k : BitVec 4} (h : w.extractLsb' 12 4 = k) : decode w = decodeOp k w := by
  rw [decode, Field.op, h]

end Sys2Proof.Laws
end

