-- ==== Sys2Proof/Laws/Memory.lean ====
section
/-!
SUPPORT. Laws/Memory.lean: a read after a write, and that every memory operation keeps the canonical form.
-/

namespace Sys2Proof.Laws

open Sys2Proof.Machine

theorem lookup_eraseCell (m : Memory) (a b : Nat) :
    lookup (eraseCell m a) b = if b = a then Config.blank else lookup m b := by
  induction m with
  | nil => simp [eraseCell, lookup]
  | cons c rest ih =>
    obtain ⟨k, u⟩ := c
    by_cases hk : a = k
    · subst hk
      by_cases hb : b = a <;> simp_all [eraseCell, lookup]
    · by_cases hb : b = k
      · subst hb
        simp [eraseCell, lookup, hk, Ne.symm hk]
      · simp [eraseCell, lookup, hk, hb, ih]

theorem eraseCell_absent (m : Memory) (a : Nat) : ∀ c ∈ eraseCell m a, c.1 ≠ a := by
  induction m with
  | nil => simp [eraseCell]
  | cons c rest ih =>
    obtain ⟨k, u⟩ := c
    by_cases hk : a = k
    · simp only [eraseCell, if_pos hk]
      exact ih
    · simp only [eraseCell, if_neg hk, List.mem_cons]
      rintro c (rfl | hc)
      · exact Ne.symm hk
      · exact ih c hc

theorem lookup_insertCell (e : Memory) (a b : Nat) (v : Word) (h : ∀ c ∈ e, c.1 ≠ a) :
    lookup (insertCell e a v) b = if b = a then v else lookup e b := by
  induction e with
  | nil => simp [insertCell, lookup]
  | cons c rest ih =>
    obtain ⟨k, u⟩ := c
    have hk : k ≠ a := h (k, u) (by simp)
    have hrest := ih fun c hc => h c (by simp [hc])
    by_cases hlt : a < k
    · simp [insertCell, hlt, lookup]
    · by_cases hb : b = k
      · simp [insertCell, hlt, lookup, hb, hk]
      · simp [insertCell, hlt, lookup, hb, hrest]

/-- A read after a write: the written cell gives the value written, every other cell what it gave before
(20_memory.md R35, R37). It holds of every list, canonical or not. -/
theorem read_write (m : Memory) (a b : Word) (v : Word) :
    (m.write a v).read b = if b = a then v else m.read b := by
  by_cases hv : v = Config.blank
  · simp [Memory.write, Memory.read, hv, lookup_eraseCell, BitVec.toNat_inj]
  · simp only [Memory.write, Memory.read, if_neg hv, lookup_insertCell _ _ _ _ (eraseCell_absent m a.toNat),
      lookup_eraseCell, BitVec.toNat_inj]
    split <;> rfl

@[simp] theorem read_write_same (m : Memory) (a v : Word) : (m.write a v).read a = v := by
  simp [read_write]

theorem read_write_other (m : Memory) {a b : Word} (v : Word) (h : b ≠ a) :
    (m.write a v).read b = m.read b := by
  simp [read_write, h]

@[simp] theorem read_nil (a : Word) : Memory.read [] a = Config.blank := rfl

theorem wellOrdered_mono {lo lo' : Nat} (m : Memory) (h : lo ≤ lo') (hm : wellOrdered lo' m = true) :
    wellOrdered lo m = true := by
  cases m with
  | nil => rfl
  | cons c rest =>
    obtain ⟨k, u⟩ := c
    simp only [wellOrdered, Bool.and_eq_true, decide_eq_true_eq] at hm ⊢
    exact ⟨⟨⟨by omega, hm.1.1.2⟩, hm.1.2⟩, hm.2⟩

theorem wellOrdered_eraseCell (lo : Nat) (m : Memory) (a : Nat) (hm : wellOrdered lo m = true) :
    wellOrdered lo (eraseCell m a) = true := by
  induction m generalizing lo with
  | nil => exact hm
  | cons c rest ih =>
    obtain ⟨k, u⟩ := c
    simp only [wellOrdered, Bool.and_eq_true, decide_eq_true_eq] at hm
    by_cases hk : a = k
    · simp only [eraseCell, if_pos hk]
      exact ih lo (wellOrdered_mono rest (by omega) hm.2)
    · simp [eraseCell, hk, wellOrdered, hm.1, ih (k + 1) hm.2]

theorem wellOrdered_insertCell (lo : Nat) (e : Memory) (a : Nat) (v : Word) (h : ∀ c ∈ e, c.1 ≠ a)
    (hlo : lo ≤ a) (ha : a < 65536) (hv : v ≠ Config.blank) (he : wellOrdered lo e = true) :
    wellOrdered lo (insertCell e a v) = true := by
  induction e generalizing lo with
  | nil => simp [insertCell, wellOrdered, hlo, ha, hv]
  | cons c rest ih =>
    obtain ⟨k, u⟩ := c
    have hk : k ≠ a := h (k, u) (by simp)
    simp only [wellOrdered, Bool.and_eq_true, decide_eq_true_eq] at he
    by_cases hlt : a < k
    · simp [insertCell, hlt, wellOrdered, hlo, ha, hv, he.1, he.2, Nat.succ_le_of_lt hlt]
    · simp [insertCell, hlt, wellOrdered, he.1,
        ih (k + 1) (fun c hc => h c (by simp [hc])) (by omega) he.2]

/-- Every write keeps the canonical form. -/
theorem wf_write (m : Memory) (a v : Word) (hm : m.wf = true) : (m.write a v).wf = true := by
  have he := wellOrdered_eraseCell 0 m a.toNat hm
  by_cases hv : v = Config.blank
  · simpa [Memory.write, Memory.wf, hv] using he
  · simpa [Memory.write, Memory.wf, hv] using
      wellOrdered_insertCell 0 _ a.toNat v (eraseCell_absent m a.toNat) (Nat.zero_le _) a.isLt hv he

/-- The empty memory, which `State.reset` has, is canonical. -/
@[simp] theorem wf_nil : Memory.wf [] = true := rfl

end Sys2Proof.Laws
end

