-- ==== Sys2Proof/Laws/State.lean ====
section
/-!
SUPPORT. Laws/State.lean: one lemma per field per update, so that no proof unfolds a record update.
-/

namespace Sys2Proof.Laws

open Sys2Proof.Machine

@[simp] theorem setReg_regs (s : State) (r : Reg) (v : Word) : (s.setReg r v).regs = s.regs.set r v := rfl
@[simp] theorem setReg_pc (s : State) (r : Reg) (v : Word) : (s.setReg r v).pc = s.pc := rfl
@[simp] theorem setReg_cond (s : State) (r : Reg) (v : Word) : (s.setReg r v).cond = s.cond := rfl
@[simp] theorem setReg_run (s : State) (r : Reg) (v : Word) : (s.setReg r v).run = s.run := rfl
@[simp] theorem setReg_faultOpcode (s : State) (r : Reg) (v : Word) : (s.setReg r v).faultOpcode = s.faultOpcode := rfl
@[simp] theorem setReg_mem (s : State) (r : Reg) (v : Word) : (s.setReg r v).mem = s.mem := rfl
@[simp] theorem setReg_kbdReady (s : State) (r : Reg) (v : Word) : (s.setReg r v).kbdReady = s.kbdReady := rfl
@[simp] theorem setReg_kbdByte (s : State) (r : Reg) (v : Word) : (s.setReg r v).kbdByte = s.kbdByte := rfl
@[simp] theorem setReg_kbd (s : State) (r : Reg) (v : Word) : (s.setReg r v).kbd = s.kbd := rfl
@[simp] theorem setReg_out (s : State) (r : Reg) (v : Word) : (s.setReg r v).out = s.out := rfl

@[simp] theorem setPc_regs (s : State) (target : Word) : (s.setPc target).regs = s.regs := rfl
@[simp] theorem setPc_pc (s : State) (target : Word) : (s.setPc target).pc = target := rfl
@[simp] theorem setPc_cond (s : State) (target : Word) : (s.setPc target).cond = s.cond := rfl
@[simp] theorem setPc_run (s : State) (target : Word) : (s.setPc target).run = s.run := rfl
@[simp] theorem setPc_faultOpcode (s : State) (target : Word) : (s.setPc target).faultOpcode = s.faultOpcode := rfl
@[simp] theorem setPc_mem (s : State) (target : Word) : (s.setPc target).mem = s.mem := rfl
@[simp] theorem setPc_kbdReady (s : State) (target : Word) : (s.setPc target).kbdReady = s.kbdReady := rfl
@[simp] theorem setPc_kbdByte (s : State) (target : Word) : (s.setPc target).kbdByte = s.kbdByte := rfl
@[simp] theorem setPc_kbd (s : State) (target : Word) : (s.setPc target).kbd = s.kbd := rfl
@[simp] theorem setPc_out (s : State) (target : Word) : (s.setPc target).out = s.out := rfl

@[simp] theorem link_regs (s : State) : (s.link).regs = s.regs.set 7 s.pc := rfl
@[simp] theorem link_pc (s : State) : (s.link).pc = s.pc := rfl
@[simp] theorem link_cond (s : State) : (s.link).cond = s.cond := rfl
@[simp] theorem link_run (s : State) : (s.link).run = s.run := rfl
@[simp] theorem link_faultOpcode (s : State) : (s.link).faultOpcode = s.faultOpcode := rfl
@[simp] theorem link_mem (s : State) : (s.link).mem = s.mem := rfl
@[simp] theorem link_kbdReady (s : State) : (s.link).kbdReady = s.kbdReady := rfl
@[simp] theorem link_kbdByte (s : State) : (s.link).kbdByte = s.kbdByte := rfl
@[simp] theorem link_kbd (s : State) : (s.link).kbd = s.kbd := rfl
@[simp] theorem link_out (s : State) : (s.link).out = s.out := rfl

@[simp] theorem memWrite_regs (s : State) (a v : Word) : (s.memWrite a v).regs = s.regs := rfl
@[simp] theorem memWrite_pc (s : State) (a v : Word) : (s.memWrite a v).pc = s.pc := rfl
@[simp] theorem memWrite_cond (s : State) (a v : Word) : (s.memWrite a v).cond = s.cond := rfl
@[simp] theorem memWrite_run (s : State) (a v : Word) : (s.memWrite a v).run = s.run := rfl
@[simp] theorem memWrite_faultOpcode (s : State) (a v : Word) : (s.memWrite a v).faultOpcode = s.faultOpcode := rfl
@[simp] theorem memWrite_mem (s : State) (a v : Word) : (s.memWrite a v).mem = s.mem.write a v := rfl
@[simp] theorem memWrite_kbdReady (s : State) (a v : Word) : (s.memWrite a v).kbdReady = s.kbdReady := rfl
@[simp] theorem memWrite_kbdByte (s : State) (a v : Word) : (s.memWrite a v).kbdByte = s.kbdByte := rfl
@[simp] theorem memWrite_kbd (s : State) (a v : Word) : (s.memWrite a v).kbd = s.kbd := rfl
@[simp] theorem memWrite_out (s : State) (a v : Word) : (s.memWrite a v).out = s.out := rfl

@[simp] theorem emit_regs (s : State) (bs : List Byte) : (s.emit bs).regs = s.regs := rfl
@[simp] theorem emit_pc (s : State) (bs : List Byte) : (s.emit bs).pc = s.pc := rfl
@[simp] theorem emit_cond (s : State) (bs : List Byte) : (s.emit bs).cond = s.cond := rfl
@[simp] theorem emit_run (s : State) (bs : List Byte) : (s.emit bs).run = s.run := rfl
@[simp] theorem emit_faultOpcode (s : State) (bs : List Byte) : (s.emit bs).faultOpcode = s.faultOpcode := rfl
@[simp] theorem emit_mem (s : State) (bs : List Byte) : (s.emit bs).mem = s.mem := rfl
@[simp] theorem emit_kbdReady (s : State) (bs : List Byte) : (s.emit bs).kbdReady = s.kbdReady := rfl
@[simp] theorem emit_kbdByte (s : State) (bs : List Byte) : (s.emit bs).kbdByte = s.kbdByte := rfl
@[simp] theorem emit_kbd (s : State) (bs : List Byte) : (s.emit bs).kbd = s.kbd := rfl
@[simp] theorem emit_out (s : State) (bs : List Byte) : (s.emit bs).out = s.out ++ bs := rfl

@[simp] theorem raiseUnimplementedOpcode_regs (s : State) (op : BitVec 4) :
    (s.raiseUnimplementedOpcode op).regs = s.regs := rfl
@[simp] theorem raiseUnimplementedOpcode_pc (s : State) (op : BitVec 4) :
    (s.raiseUnimplementedOpcode op).pc = s.pc := rfl
@[simp] theorem raiseUnimplementedOpcode_cond (s : State) (op : BitVec 4) :
    (s.raiseUnimplementedOpcode op).cond = s.cond := rfl
@[simp] theorem raiseUnimplementedOpcode_run (s : State) (op : BitVec 4) :
    (s.raiseUnimplementedOpcode op).run = .faulted := rfl
@[simp] theorem raiseUnimplementedOpcode_faultOpcode (s : State) (op : BitVec 4) :
    (s.raiseUnimplementedOpcode op).faultOpcode = op := rfl
@[simp] theorem raiseUnimplementedOpcode_mem (s : State) (op : BitVec 4) :
    (s.raiseUnimplementedOpcode op).mem = s.mem := rfl
@[simp] theorem raiseUnimplementedOpcode_kbdReady (s : State) (op : BitVec 4) :
    (s.raiseUnimplementedOpcode op).kbdReady = s.kbdReady := rfl
@[simp] theorem raiseUnimplementedOpcode_kbdByte (s : State) (op : BitVec 4) :
    (s.raiseUnimplementedOpcode op).kbdByte = s.kbdByte := rfl
@[simp] theorem raiseUnimplementedOpcode_kbd (s : State) (op : BitVec 4) :
    (s.raiseUnimplementedOpcode op).kbd = s.kbd := rfl
@[simp] theorem raiseUnimplementedOpcode_out (s : State) (op : BitVec 4) :
    (s.raiseUnimplementedOpcode op).out = s.out := rfl

@[simp] theorem setcc_regs (s : State) (v : Word) : (s.setcc v).regs = s.regs := rfl
@[simp] theorem setcc_pc (s : State) (v : Word) : (s.setcc v).pc = s.pc := rfl
@[simp] theorem setcc_cond (s : State) (v : Word) : (s.setcc v).cond = flagOf v := rfl
@[simp] theorem setcc_run (s : State) (v : Word) : (s.setcc v).run = s.run := rfl
@[simp] theorem setcc_faultOpcode (s : State) (v : Word) : (s.setcc v).faultOpcode = s.faultOpcode := rfl
@[simp] theorem setcc_mem (s : State) (v : Word) : (s.setcc v).mem = s.mem := rfl
@[simp] theorem setcc_kbdReady (s : State) (v : Word) : (s.setcc v).kbdReady = s.kbdReady := rfl
@[simp] theorem setcc_kbdByte (s : State) (v : Word) : (s.setcc v).kbdByte = s.kbdByte := rfl
@[simp] theorem setcc_kbd (s : State) (v : Word) : (s.setcc v).kbd = s.kbd := rfl
@[simp] theorem setcc_out (s : State) (v : Word) : (s.setcc v).out = s.out := rfl

@[simp] theorem produce_regs (s : State) (r : Reg) (v : Word) : (s.produce r v).regs = s.regs.set r v := rfl
@[simp] theorem produce_pc (s : State) (r : Reg) (v : Word) : (s.produce r v).pc = s.pc := rfl
@[simp] theorem produce_cond (s : State) (r : Reg) (v : Word) : (s.produce r v).cond = flagOf v := rfl
@[simp] theorem produce_run (s : State) (r : Reg) (v : Word) : (s.produce r v).run = s.run := rfl
@[simp] theorem produce_faultOpcode (s : State) (r : Reg) (v : Word) :
    (s.produce r v).faultOpcode = s.faultOpcode := rfl
@[simp] theorem produce_mem (s : State) (r : Reg) (v : Word) : (s.produce r v).mem = s.mem := rfl
@[simp] theorem produce_kbdReady (s : State) (r : Reg) (v : Word) : (s.produce r v).kbdReady = s.kbdReady := rfl
@[simp] theorem produce_kbdByte (s : State) (r : Reg) (v : Word) : (s.produce r v).kbdByte = s.kbdByte := rfl
@[simp] theorem produce_kbd (s : State) (r : Reg) (v : Word) : (s.produce r v).kbd = s.kbd := rfl
@[simp] theorem produce_out (s : State) (r : Reg) (v : Word) : (s.produce r v).out = s.out := rfl

@[simp] theorem resetWith_regs (origin : Word) (m : Memory) (k : Kbd) :
    (State.resetWith origin m k).regs = Vector.replicate 8 0x0000#16 := rfl
@[simp] theorem resetWith_pc (origin : Word) (m : Memory) (k : Kbd) : (State.resetWith origin m k).pc = origin := rfl
@[simp] theorem resetWith_cond (origin : Word) (m : Memory) (k : Kbd) : (State.resetWith origin m k).cond = .zero := rfl
@[simp] theorem resetWith_run (origin : Word) (m : Memory) (k : Kbd) : (State.resetWith origin m k).run = .running := rfl
@[simp] theorem resetWith_faultOpcode (origin : Word) (m : Memory) (k : Kbd) :
    (State.resetWith origin m k).faultOpcode = 0x0#4 := rfl
@[simp] theorem resetWith_mem (origin : Word) (m : Memory) (k : Kbd) : (State.resetWith origin m k).mem = m := rfl
@[simp] theorem resetWith_kbdReady (origin : Word) (m : Memory) (k : Kbd) : (State.resetWith origin m k).kbdReady = false := rfl
@[simp] theorem resetWith_kbdByte (origin : Word) (m : Memory) (k : Kbd) : (State.resetWith origin m k).kbdByte = 0x00#8 := rfl
@[simp] theorem resetWith_kbd (origin : Word) (m : Memory) (k : Kbd) : (State.resetWith origin m k).kbd = k := rfl
@[simp] theorem resetWith_out (origin : Word) (m : Memory) (k : Kbd) : (State.resetWith origin m k).out = [] := rfl

theorem reg_def (s : State) (r : Reg) : s.reg r = s.regs[r] := rfl

/-- Reading a register after any write of a register (10_state.md R10). -/
theorem getElem_set (v : Vector Word 8) (d r : Reg) (x : Word) :
    (v.set d x)[r] = if r = d then x else v[r] := by
  simp only [Fin.getElem_fin, Vector.getElem_set, Fin.ext_iff, eq_comm]

@[simp] theorem reg_setPc (s : State) (target : Word) (r : Reg) : (s.setPc target).reg r = s.reg r := rfl
@[simp] theorem reg_memWrite (s : State) (a v : Word) (r : Reg) : (s.memWrite a v).reg r = s.reg r := rfl
@[simp] theorem reg_emit (s : State) (bs : List Byte) (r : Reg) : (s.emit bs).reg r = s.reg r := rfl
@[simp] theorem reg_raiseUnimplementedOpcode (s : State) (op : BitVec 4) (r : Reg) : (s.raiseUnimplementedOpcode op).reg r = s.reg r := rfl
@[simp] theorem reg_setcc (s : State) (v : Word) (r : Reg) : (s.setcc v).reg r = s.reg r := rfl

theorem reg_setReg (s : State) (d r : Reg) (v : Word) : (s.setReg d v).reg r = if r = d then v else s.reg r :=
  getElem_set s.regs d r v

theorem reg_produce (s : State) (d r : Reg) (v : Word) : (s.produce d v).reg r = if r = d then v else s.reg r :=
  getElem_set s.regs d r v

theorem reg_link (s : State) (r : Reg) : s.link.reg r = if r = 7 then s.pc else s.reg r :=
  getElem_set s.regs 7 r s.pc

theorem reset_eq : State.reset = State.resetWith Config.origin [] { now := [], rest := .steady 0 0 } := rfl

end Sys2Proof.Laws
end

