-- ==== Sys2Proof/Laws/Stream.lean ====
section
/-!
SUPPORT. Laws/Stream.lean: the keyboard stream, and that its form leaves no sequence of answers out.
-/

namespace Sys2Proof.Laws

open Sys2Proof.Machine

/-- The byte an answer delivers, if any. -/
def answerByte (a : PollAnswer) : Option Byte :=
  match a with
  | .notReady => none
  | .ready b => some b

theorem drop_zero (k : Kbd) : k.drop 0 = k := rfl

theorem drop_succ (n : Nat) (k : Kbd) : k.drop (n + 1) = k.poll.2.drop n := rfl

theorem drop_add (m n : Nat) (k : Kbd) : k.drop (m + n) = (k.drop m).drop n := by
  induction m generalizing k with
  | zero =>
    rw [Nat.zero_add]
    rfl
  | succ m ih =>
    rw [Nat.add_right_comm]
    exact ih k.poll.2

theorem answer_zero (k : Kbd) : k.answer 0 = k.poll.1 := rfl

theorem answer_succ (n : Nat) (k : Kbd) : k.answer (n + 1) = k.poll.2.answer n := rfl

theorem answer_drop (m n : Nat) (k : Kbd) : (k.drop m).answer n = k.answer (m + n) := by
  simp [Kbd.answer, drop_add]

/-! The poll, case by case (20_memory.md R48) -/

theorem poll_cons (a : PollAnswer) (more : List PollAnswer) (r : KbdRest) :
    Kbd.poll { now := a :: more, rest := r } = (answerByte a, { now := more, rest := r }) := by
  cases a <;> rfl

theorem poll_silent : Kbd.poll { now := [], rest := .silent } = (none, { now := [], rest := .silent }) := rfl

theorem poll_steady (id pos : Nat) :
    Kbd.poll { now := [], rest := .steady id pos } =
      (some (Config.steadyByte id pos), { now := [], rest := .steady id (pos + 1) }) := rfl

/-- What a fitful stream lists next is not empty. -/
theorem fitfulAnswers_ne_nil (id pos : Nat) : Config.fitfulAnswers id pos ≠ [] := by
  unfold Config.fitfulAnswers
  split <;> simp

theorem poll_fitful (id pos : Nat) :
    Kbd.poll { now := [], rest := .fitful id pos } =
      Kbd.poll { now := Config.fitfulAnswers id pos, rest := .fitful id (pos + 1) } := by
  cases h : Config.fitfulAnswers id pos with
  | nil => exact absurd h (fitfulAnswers_ne_nil id pos)
  | cons a more => simp [Kbd.poll, Kbd.refill, KbdRest.unroll, h]

theorem answer_fitful (n id pos : Nat) :
    Kbd.answer n { now := [], rest := .fitful id pos } =
      Kbd.answer n { now := Config.fitfulAnswers id pos, rest := .fitful id (pos + 1) } := by
  cases n with
  | zero => simp only [answer_zero, poll_fitful]
  | succ n => simp only [answer_succ, poll_fitful]

/-! The listed answers -/

theorem drop_append (l more : List PollAnswer) (r : KbdRest) :
    Kbd.drop l.length { now := l ++ more, rest := r } = { now := more, rest := r } := by
  induction l with
  | nil => rfl
  | cons a l ih =>
    rw [List.cons_append, List.length_cons, drop_succ, poll_cons]
    exact ih

theorem drop_listed (k : Kbd) : k.drop k.now.length = { now := [], rest := k.rest } := by
  simpa using drop_append k.now [] k.rest

/-- The answer that `l` listed ones precede. -/
theorem answer_append (l more : List PollAnswer) (a : PollAnswer) (r : KbdRest) :
    Kbd.answer l.length { now := l ++ a :: more, rest := r } = answerByte a := by
  rw [Kbd.answer, drop_append, poll_cons]

/-- A steady stream never delivers the byte 0x00. -/
theorem steadyByte_ne_zero (id pos : Nat) : Config.steadyByte id pos ≠ 0x00#8 := by
  intro h
  have h := congrArg BitVec.toNat h
  simp [Config.steadyByte] at h
  omega

theorem drop_steady (n id pos : Nat) :
    Kbd.drop n { now := [], rest := .steady id pos } = { now := [], rest := .steady id (pos + n) } := by
  induction n generalizing pos with
  | zero => rfl
  | succ n ih =>
    rw [drop_succ, poll_steady, ih, Nat.add_assoc, Nat.add_comm 1 n]

theorem drop_silent (n : Nat) :
    Kbd.drop n { now := [], rest := .silent } = { now := [], rest := .silent } := by
  induction n with
  | zero => rfl
  | succ n ih => exact ih

/-- What a fitful stream lists next holds a byte. -/
theorem fitful_delivers (id pos : Nat) : ∃ l b more, Config.fitfulAnswers id pos = l ++ .ready b :: more := by
  unfold Config.fitfulAnswers
  split
  · exact ⟨_, 0x00#8, [], rfl⟩
  · rename_i b _
    exact ⟨(Config.fitfulBlock id pos).1 ++ [.notReady], b, [], by simp⟩

/-- What a fitful stream lists next holds a failed poll or a zero byte. -/
theorem fitful_stops (id pos : Nat) :
    ∃ l a more, Config.fitfulAnswers id pos = l ++ a :: more ∧ (a = .notReady ∨ a = .ready 0x00#8) := by
  unfold Config.fitfulAnswers
  split
  · exact ⟨_, _, [], rfl, .inr rfl⟩
  · exact ⟨_, _, _, rfl, .inl rfl⟩

theorem answer_fitful_append {id pos : Nat} {l more : List PollAnswer} {a : PollAnswer} (k : Kbd)
    (h : Config.fitfulAnswers id pos = l ++ a :: more) (hr : k.rest = .fitful id pos) :
    k.now.length + l.length < k.depth ∧ k.answer (k.now.length + l.length) = answerByte a := by
  constructor
  · simp [Kbd.depth, hr, KbdRest.unroll, h]
  · rw [← answer_drop, drop_listed, hr, answer_fitful, h, answer_append]

/-- If every poll up to the stream's depth fails, the stream is silent for ever. -/
theorem drop_depth (k : Kbd) (h : ∀ j, j < k.depth + 1 → k.answer j = none) :
    k.drop (k.depth + 1) = { now := [], rest := .silent } := by
  cases hr : k.rest with
  | silent =>
    have e : k.depth + 1 = k.now.length + 1 := by simp [Kbd.depth, hr, KbdRest.unroll]
    rw [e, drop_add, drop_listed, hr, drop_silent]
  | steady id pos =>
    have e := h k.now.length (by simp only [Kbd.depth]; omega)
    rw [← Nat.add_zero k.now.length, ← answer_drop, drop_listed, hr, answer_zero, poll_steady] at e
    cases e
  | fitful id pos =>
    obtain ⟨l, b, more, hl⟩ := fitful_delivers id pos
    obtain ⟨h1, h2⟩ := answer_fitful_append k hl hr
    rw [h _ (by omega)] at h2
    cases h2

/-- If every poll up to the stream's depth delivers a non-zero byte, the stream is steady and all polls do. -/
theorem steady_of_keys (k : Kbd) (h : ∀ j, j < k.depth + 1 → ∃ b, k.answer j = some b ∧ b ≠ 0x00#8) :
    (∃ id pos, k.rest = .steady id pos) ∧ ∀ j, ∃ b, k.answer j = some b ∧ b ≠ 0x00#8 := by
  cases hr : k.rest with
  | silent =>
    obtain ⟨b, e, _⟩ := h k.now.length (by simp only [Kbd.depth]; omega)
    rw [← Nat.add_zero k.now.length, ← answer_drop, drop_listed, hr, answer_zero, poll_silent] at e
    cases e
  | fitful id pos =>
    obtain ⟨l, a, more, hl, ha⟩ := fitful_stops id pos
    obtain ⟨h1, h2⟩ := answer_fitful_append k hl hr
    obtain ⟨b, e, hb⟩ := h _ (Nat.lt_succ_of_lt h1)
    rw [h2] at e
    rcases ha with rfl | rfl <;> cases e
    exact absurd rfl hb
  | steady id pos =>
    refine ⟨⟨id, pos, rfl⟩, fun j => ?_⟩
    by_cases hj : j < k.now.length
    · exact h j (by simp only [Kbd.depth]; omega)
    · obtain ⟨n, rfl⟩ := Nat.exists_eq_add_of_le (Nat.le_of_not_lt hj)
      refine ⟨Config.steadyByte id (pos + n), ?_, steadyByte_ne_zero id (pos + n)⟩
      rw [← answer_drop, drop_listed, hr, Kbd.answer, drop_steady, poll_steady]

/-! No sequence of answers is left out (log entry 3) -/

/-- Any endless sequence of answers is one of three: from some point on no poll is answered true; from some point on
every poll delivers a non-zero byte; or, beyond every point, there is the end of a block of a fitful stream, so that
the sequence can be cut into blocks. -/
theorem answers_trichotomy (f : Nat → PollAnswer) :
    (∃ n, ∀ j, n ≤ j → f j = .notReady) ∨
    (∃ n, ∀ j, n ≤ j → ∃ b, f j = .ready b ∧ b ≠ 0x00#8) ∨
    ∀ n, ∃ j, n ≤ j ∧ (f j = .ready 0x00#8 ∨ f j = .notReady ∧ ∃ b, f (j + 1) = .ready b) := by
  by_cases h1 : ∃ n, ∀ j, n ≤ j → f j = .notReady
  · exact .inl h1
  by_cases h2 : ∃ n, ∀ j, n ≤ j → ∃ b, f j = .ready b ∧ b ≠ 0x00#8
  · exact .inr (.inl h2)
  refine .inr (.inr fun n => ?_)
  by_contra hno
  have no : ∀ j, n ≤ j → f j ≠ .ready 0x00#8 ∧ (f j = .notReady → f (j + 1) = .notReady) := by
    intro j hj
    refine ⟨fun e => hno ⟨j, hj, .inl e⟩, fun e => ?_⟩
    cases e' : f (j + 1) with
    | notReady => rfl
    | ready b => exact absurd ⟨j, hj, .inr ⟨e, b, e'⟩⟩ hno
  by_cases h3 : ∃ p, n ≤ p ∧ f p = .notReady
  · obtain ⟨p, hp, e⟩ := h3
    refine h1 ⟨p, fun j hj => ?_⟩
    induction j, hj using Nat.le_induction with
    | base => exact e
    | succ j hj ih => exact (no j (Nat.le_trans hp hj)).2 ih
  · refine h2 ⟨n, fun j hj => ?_⟩
    cases e : f j with
    | notReady => exact absurd ⟨j, hj, e⟩ h3
    | ready b => exact ⟨b, rfl, fun hb => (no j hj).1 (by rw [e, hb])⟩

end Sys2Proof.Laws
end

