-- ==== Sys2Proof/Laws/Ops.lean ====
section
/-!
SUPPORT. Laws/Ops.lean: what each shared operation can do, said once. Proofs cite these and do not unfold the bus.
-/

namespace Sys2Proof.Laws

open Sys2Proof.Machine

/-- `t` is `s` but for the keyboard latch and answers taken off the front of the stream. -/
def KbdStep (s t : State) : Prop :=
  ∃ r b n, t = { s with kbdReady := r, kbdByte := b, kbd := s.kbd.drop n }

/-- `t` is `s` but for the keyboard side and bytes appended to the output. -/
def KbdOut (s t : State) : Prop :=
  ∃ r b n o, t = { s with kbdReady := r, kbdByte := b, kbd := s.kbd.drop n, out := s.out ++ o }

theorem KbdStep.refl (s : State) : KbdStep s s := ⟨s.kbdReady, s.kbdByte, 0, rfl⟩

theorem KbdStep.trans {s t u : State} (h₁ : KbdStep s t) (h₂ : KbdStep t u) : KbdStep s u := by
  obtain ⟨r, b, n, rfl⟩ := h₁
  obtain ⟨r', b', n', rfl⟩ := h₂
  exact ⟨r', b', n + n', by simp [drop_add]⟩

theorem KbdStep.out {s t : State} (h : KbdStep s t) : KbdOut s t := by
  obtain ⟨r, b, n, rfl⟩ := h
  exact ⟨r, b, n, [], by simp⟩

theorem KbdOut.trans {s t u : State} (h₁ : KbdOut s t) (h₂ : KbdOut t u) : KbdOut s u := by
  obtain ⟨r, b, n, o, rfl⟩ := h₁
  obtain ⟨r', b', n', o', rfl⟩ := h₂
  exact ⟨r', b', n + n', o ++ o', by simp [drop_add]⟩

theorem KbdOut.emit (s : State) (bs : List Byte) : KbdOut s (s.emit bs) :=
  ⟨s.kbdReady, s.kbdByte, 0, bs, rfl⟩

/-- Everything a bus read can do (20_memory.md R32 to R34): one line per case. -/
theorem memRead_cases (s : State) (a : Word) :
    (plain a = true ∧ s.memRead a = (s.mem.read a, s)) ∨
    (a = Config.kbsr ∧ s.kbdReady = true ∧ s.memRead a = (0x8000#16, s)) ∨
    (a = Config.kbsr ∧ s.kbdReady = false ∧ s.kbd.poll.1 = none ∧
      s.memRead a = (0x0000#16, { s with kbd := s.kbd.poll.2 })) ∨
    (∃ b, a = Config.kbsr ∧ s.kbdReady = false ∧ s.kbd.poll.1 = some b ∧
      s.memRead a = (0x8000#16, { s with kbd := s.kbd.poll.2, kbdReady := true, kbdByte := b })) ∨
    (a = Config.kbdr ∧ s.kbdReady = true ∧
      s.memRead a = (s.kbdByte.setWidth 16, { s with kbdReady := false, kbdByte := 0x00#8 })) ∨
    (a = Config.kbdr ∧ s.kbdReady = false ∧ s.memRead a = (0x0000#16, s)) := by
  by_cases h1 : a = Config.kbsr
  · subst h1
    cases hr : s.kbdReady with
    | true => simp [State.memRead, State.kbsrRead, State.pollLatch, hr]
    | false =>
      cases hp : s.kbd.poll.1 <;> simp [State.memRead, State.kbsrRead, State.pollLatch, State.poll, hr, hp]
  · by_cases h2 : a = Config.kbdr
    · subst h2
      cases hr : s.kbdReady <;> simp [State.memRead, State.kbdrRead, hr, h1]
    · left
      simp [plain, State.memRead, h1, h2]

theorem memRead_plain (s : State) {a : Word} (h : plain a = true) : s.memRead a = (s.mem.read a, s) := by
  simp only [plain, Bool.and_eq_true, bne_iff_ne, ne_eq] at h
  simp [State.memRead, h]

/-- A bus read looks at neither the registers nor the output. -/
theorem memRead_frame (s : State) (a : Word) (rs : Vector Word 8) (o : List Byte) :
    State.memRead { s with regs := rs, out := o } a =
      ((s.memRead a).1, { (s.memRead a).2 with regs := rs, out := o }) := by
  by_cases h1 : a = Config.kbsr
  · subst h1
    cases hr : s.kbdReady with
    | true => simp [State.memRead, State.kbsrRead, State.pollLatch, hr]
    | false =>
      cases hp : s.kbd.poll.1 <;> simp [State.memRead, State.kbsrRead, State.pollLatch, State.poll, hr, hp]
  · by_cases h2 : a = Config.kbdr
    · subst h2
      cases hr : s.kbdReady <;> simp [State.memRead, State.kbdrRead, hr, h1]
    · simp [State.memRead, h1, h2]

/-- A bus read changes nothing but the keyboard side (20_memory.md R41). -/
theorem memRead_step (s : State) (a : Word) : KbdStep s (s.memRead a).2 := by
  rcases memRead_cases s a with ⟨_, h⟩ | ⟨_, _, h⟩ | ⟨_, _, _, h⟩ | ⟨b, _, _, _, h⟩ | ⟨_, _, h⟩ | ⟨_, _, h⟩
  · exact h ▸ KbdStep.refl s
  · exact h ▸ KbdStep.refl s
  · exact ⟨s.kbdReady, s.kbdByte, 1, by rw [h]; rfl⟩
  · exact ⟨true, b, 1, by rw [h]; rfl⟩
  · exact ⟨false, 0x00#8, 0, by rw [h]; rfl⟩
  · exact h ▸ KbdStep.refl s

@[simp] theorem memRead_regs (s : State) (a : Word) : (s.memRead a).2.regs = s.regs := by
  obtain ⟨_, _, _, h⟩ := memRead_step s a
  rw [h]

@[simp] theorem memRead_pc (s : State) (a : Word) : (s.memRead a).2.pc = s.pc := by
  obtain ⟨_, _, _, h⟩ := memRead_step s a
  rw [h]

@[simp] theorem memRead_cond (s : State) (a : Word) : (s.memRead a).2.cond = s.cond := by
  obtain ⟨_, _, _, h⟩ := memRead_step s a
  rw [h]

@[simp] theorem memRead_run (s : State) (a : Word) : (s.memRead a).2.run = s.run := by
  obtain ⟨_, _, _, h⟩ := memRead_step s a
  rw [h]

@[simp] theorem memRead_faultOpcode (s : State) (a : Word) : (s.memRead a).2.faultOpcode = s.faultOpcode := by
  obtain ⟨_, _, _, h⟩ := memRead_step s a
  rw [h]

@[simp] theorem memRead_mem (s : State) (a : Word) : (s.memRead a).2.mem = s.mem := by
  obtain ⟨_, _, _, h⟩ := memRead_step s a
  rw [h]

@[simp] theorem memRead_out (s : State) (a : Word) : (s.memRead a).2.out = s.out := by
  obtain ⟨_, _, _, h⟩ := memRead_step s a
  rw [h]

@[simp] theorem reg_memRead (s : State) (a : Word) (r : Reg) : (s.memRead a).2.reg r = s.reg r := by
  simp [reg_def]

/-- A bus read leaves an empty latch clean. -/
theorem memRead_latchWf (s : State) (a : Word) (h : s.latchWf = true) : (s.memRead a).2.latchWf = true := by
  rcases memRead_cases s a with ⟨_, e⟩ | ⟨_, _, e⟩ | ⟨_, _, _, e⟩ | ⟨b, _, _, _, e⟩ | ⟨_, _, e⟩ | ⟨_, _, e⟩ <;>
    rw [e] <;> first | exact h | rfl

/-- The fetch: one bus read at `pc`, then the increment (10_state.md R29). -/
theorem fetch_eq (s : State) :
    s.fetch = ((s.memRead s.pc).1, (s.memRead s.pc).2.setPc (s.pc + 1#16)) := by
  simp [State.fetch]

theorem fetch_plain (s : State) (h : plain s.pc = true) :
    s.fetch = (s.mem.read s.pc, s.setPc (s.pc + 1#16)) := by
  simp [fetch_eq, memRead_plain s h]

end Sys2Proof.Laws
end

