-- ==== Sys2Proof/Laws/Trap.lean ====
section
/-!
SUPPORT. Laws/Trap.lean: what the key wait and the string scans can do, said once.
-/

namespace Sys2Proof.Laws

open Sys2Proof.Machine

/-- The poll loop changes nothing but the keyboard side (44_trap.md R103). -/
theorem waitReady_step (fuel : Nat) (s : State) : KbdStep s (waitReady fuel s).1 := by
  induction fuel generalizing s with
  | zero => exact KbdStep.refl s
  | succ n ih =>
    simp only [waitReady]
    split
    · exact memRead_step s _
    · exact (memRead_step s _).trans (ih _)

theorem waitReady_latchWf (fuel : Nat) (s : State) (h : s.latchWf = true) :
    (waitReady fuel s).1.latchWf = true := by
  induction fuel generalizing s with
  | zero => exact h
  | succ n ih =>
    simp only [waitReady]
    split
    · exact memRead_latchWf s _ h
    · exact ih _ (memRead_latchWf s _ h)

/-- The scan of PUTS changes nothing but the keyboard side and the output (44_trap.md R111). -/
theorem scanPuts_out (fuel : Nat) (a : Word) (s t : State) (h : scanPuts fuel a s = some t) : KbdOut s t := by
  induction fuel generalizing a s with
  | zero => simp [scanPuts] at h
  | succ n ih =>
    simp only [scanPuts] at h
    split at h
    · cases h
      exact (memRead_step s a).out
    · exact (memRead_step s a).out.trans ((KbdOut.emit _ _).trans (ih _ _ h))

/-- The scan of PUTSP changes nothing but the keyboard side and the output (44_trap.md R111). -/
theorem scanPutsp_out (fuel : Nat) (a : Word) (s t : State) (h : scanPutsp fuel a s = some t) : KbdOut s t := by
  induction fuel generalizing a s with
  | zero => simp [scanPutsp] at h
  | succ n ih =>
    simp only [scanPutsp] at h
    split at h
    · cases h
      exact (memRead_step s a).out
    · split at h
      · cases h
        exact (memRead_step s a).out.trans (KbdOut.emit _ _)
      · exact (memRead_step s a).out.trans
          ((KbdOut.emit _ _).trans ((KbdOut.emit _ _).trans (ih _ _ h)))

theorem latchWf_emit (s : State) (bs : List Byte) : (s.emit bs).latchWf = s.latchWf := rfl

theorem scanPuts_latchWf (fuel : Nat) (a : Word) (s t : State) (h : scanPuts fuel a s = some t)
    (hs : s.latchWf = true) : t.latchWf = true := by
  induction fuel generalizing a s with
  | zero => simp [scanPuts] at h
  | succ n ih =>
    simp only [scanPuts] at h
    split at h
    · cases h
      exact memRead_latchWf s a hs
    · exact ih _ _ h (memRead_latchWf s a hs)

theorem scanPutsp_latchWf (fuel : Nat) (a : Word) (s t : State) (h : scanPutsp fuel a s = some t)
    (hs : s.latchWf = true) : t.latchWf = true := by
  induction fuel generalizing a s with
  | zero => simp [scanPutsp] at h
  | succ n ih =>
    simp only [scanPutsp] at h
    split at h
    · cases h
      exact memRead_latchWf s a hs
    · split at h
      · cases h
        exact memRead_latchWf s a hs
      · exact ih _ _ h (memRead_latchWf s a hs)

/-- The end of GETC: R0, the flags, the keyboard side (44_trap.md R104). -/
theorem takeKey_silent (s : State) :
    ∃ v u, KbdStep s u ∧ s.takeKey false = u.produce 0 v ∧ (s.latchWf = true → u.latchWf = true) :=
  ⟨(s.memRead Config.kbdr).1, (s.memRead Config.kbdr).2, memRead_step s _, rfl, memRead_latchWf s _⟩

/-- The end of IN: R0, the flags, the keyboard side, the echo (44_trap.md R107). -/
theorem takeKey_echo (s : State) :
    ∃ v u, KbdOut s u ∧ s.takeKey true = u.produce 0 v ∧ (s.latchWf = true → u.latchWf = true) :=
  ⟨(s.memRead Config.kbdr).1, (s.memRead Config.kbdr).2.emit [lowByte (s.memRead Config.kbdr).1],
    (memRead_step s _).out.trans (KbdOut.emit _ _), rfl, fun h => memRead_latchWf s _ h⟩

/-- Everything a next state of GETC's routine can be. -/
theorem trapGetc_next {s t : State} (h : trapGetc s = .next t) :
    ∃ v u, KbdStep s u ∧ t = u.produce 0 v ∧ (s.latchWf = true → u.latchWf = true) := by
  have hk : KbdStep s s.waitKey.1 := waitReady_step _ s
  have hl : s.latchWf = true → s.waitKey.1.latchWf = true := waitReady_latchWf _ s
  unfold trapGetc at h
  rcases hw : s.waitKey with ⟨w, _ | _⟩ <;> rw [hw] at h hk hl
  · cases h
  · cases h
    obtain ⟨v, u, hu, e, hu'⟩ := takeKey_silent w
    exact ⟨v, u, hk.trans hu, e, fun x => hu' (hl x)⟩

/-- Everything a next state of IN's routine can be. -/
theorem trapIn_next {s t : State} (h : trapIn s = .next t) :
    ∃ v u, KbdOut s u ∧ t = u.produce 0 v ∧ (s.latchWf = true → u.latchWf = true) := by
  have hk : KbdStep (s.emit Config.inPrompt) (s.emit Config.inPrompt).waitKey.1 := waitReady_step _ _
  have hl : s.latchWf = true → (s.emit Config.inPrompt).waitKey.1.latchWf = true :=
    fun x => waitReady_latchWf _ (s.emit Config.inPrompt) x
  unfold trapIn at h
  rcases hw : (s.emit Config.inPrompt).waitKey with ⟨w, _ | _⟩ <;> rw [hw] at h hk hl
  · cases h
  · cases h
    obtain ⟨v, u, hu, e, hu'⟩ := takeKey_echo w
    exact ⟨v, u, (KbdOut.emit s _).trans (hk.out.trans hu), e, fun x => hu' (hl x)⟩

/-- Everything a next state of PUTS's routine can be. -/
theorem trapPuts_next {s t : State} (h : trapPuts s = .next t) :
    KbdOut s t ∧ (s.latchWf = true → t.latchWf = true) := by
  simp only [trapPuts] at h
  split at h
  · rename_i u hu
    cases h
    exact ⟨scanPuts_out _ _ _ _ hu, scanPuts_latchWf _ _ _ _ hu⟩
  · cases h

/-- Everything a next state of PUTSP's routine can be. -/
theorem trapPutsp_next {s t : State} (h : trapPutsp s = .next t) :
    KbdOut s t ∧ (s.latchWf = true → t.latchWf = true) := by
  simp only [trapPutsp] at h
  split at h
  · rename_i u hu
    cases h
    exact ⟨scanPutsp_out _ _ _ _ hu, scanPutsp_latchWf _ _ _ _ hu⟩
  · cases h

/-! The key wait, case by case -/

theorem kbsr_latched (s : State) (h : s.kbdReady = true) : s.memRead Config.kbsr = (0x8000#16, s) := by
  simp [State.memRead, State.kbsrRead, State.pollLatch, h]

/-- A status read whose poll fails. -/
theorem kbsr_fails (s : State) (h : s.kbdReady = false) (hp : s.kbd.answer 0 = none) :
    s.memRead Config.kbsr = (0x0000#16, { s with kbd := s.kbd.drop 1 }) := by
  have hp : s.kbd.poll.1 = none := hp
  simp [State.memRead, State.kbsrRead, State.pollLatch, State.poll, h, hp, drop_succ, drop_zero]

/-- A status read whose poll delivers a byte. -/
theorem kbsr_delivers (s : State) {b : Byte} (h : s.kbdReady = false) (hp : s.kbd.answer 0 = some b) :
    s.memRead Config.kbsr = (0x8000#16, { s with kbd := s.kbd.drop 1, kbdReady := true, kbdByte := b }) := by
  have hp : s.kbd.poll.1 = some b := hp
  simp [State.memRead, State.kbsrRead, State.pollLatch, State.poll, h, hp, drop_succ, drop_zero]

theorem kbdr_latched (s : State) (h : s.kbdReady = true) :
    s.memRead Config.kbdr = (s.kbdByte.setWidth 16, { s with kbdReady := false, kbdByte := 0x00#8 }) := by
  simp [State.memRead, State.kbdrRead, h, Config.kbsr, Config.kbdr]

/-- The wait with a byte latched. -/
theorem waitReady_latched (n : Nat) (s : State) (h : s.kbdReady = true) : waitReady (n + 1) s = (s, true) := by
  simp only [waitReady, kbsr_latched s h]
  rfl

/-- The wait that `k` failed polls precede a key of. -/
theorem waitReady_delivers (n k : Nat) {b : Byte} (s : State) (h : s.kbdReady = false)
    (hf : ∀ j, j < k → s.kbd.answer j = none) (hk : s.kbd.answer k = some b) (hn : k < n) :
    waitReady n s = ({ s with kbd := s.kbd.drop (k + 1), kbdReady := true, kbdByte := b }, true) := by
  induction k generalizing s n with
  | zero =>
    obtain ⟨m, rfl⟩ : ∃ m, n = m + 1 := ⟨n - 1, by omega⟩
    simp only [waitReady, kbsr_delivers s h hk]
    rfl
  | succ k ih =>
    obtain ⟨m, rfl⟩ : ∃ m, n = m + 1 := ⟨n - 1, by omega⟩
    have e := ih m { s with kbd := s.kbd.drop 1 } h
      (fun j hj => by rw [answer_drop, Nat.add_comm]; exact hf _ (by omega))
      (by rw [answer_drop, Nat.add_comm]; exact hk) (by omega)
    simp only [waitReady, kbsr_fails s h (hf 0 (by omega)), e]
    rfl

/-- The wait in which every poll fails. -/
theorem waitReady_fails (n : Nat) (s : State) (h : s.kbdReady = false)
    (hf : ∀ j, j < n → s.kbd.answer j = none) : waitReady n s = ({ s with kbd := s.kbd.drop n }, false) := by
  induction n generalizing s with
  | zero => rfl
  | succ n ih =>
    have e := ih { s with kbd := s.kbd.drop 1 } h
      (fun j hj => by rw [answer_drop, Nat.add_comm]; exact hf _ (by omega))
    simp only [waitReady, kbsr_fails s h (hf 0 (by omega)), e]
    rfl

end Sys2Proof.Laws
end

