-- ==== Sys2Proof/Laws/Exec.lean ====
section
/-!
SUPPORT. Laws/Exec.lean: the next states of `exec`, said once. Every frame and every invariant is read off
`exec_shape`, and no proof about all instructions splits them again.
-/

namespace Sys2Proof.Laws

open Sys2Proof.Machine

theorem next_inj {s t : State} (h : (Host.Outcome.next s : Result) = .next t) : s = t := by
  cases h
  rfl

/-- TRAP by its vector (44_trap.md R101, R110). -/
theorem exec_trap_cases (v : BitVec 8) (s : State) :
    (v = 0x20#8 ∧ exec (.trap v) s = trapGetc s.link) ∨ (v = 0x21#8 ∧ exec (.trap v) s = trapOut s.link) ∨
    (v = 0x22#8 ∧ exec (.trap v) s = trapPuts s.link) ∨ (v = 0x23#8 ∧ exec (.trap v) s = trapIn s.link) ∨
    (v = 0x24#8 ∧ exec (.trap v) s = trapPutsp s.link) ∨ (v = 0x25#8 ∧ exec (.trap v) s = trapHalt s.link) ∨
    ((v ≠ 0x20#8 ∧ v ≠ 0x21#8 ∧ v ≠ 0x22#8 ∧ v ≠ 0x23#8 ∧ v ≠ 0x24#8 ∧ v ≠ 0x25#8) ∧
      exec (.trap v) s = .next s.link) := by
  simp only [exec, execTrap]
  by_cases h0 : v = 0x20#8
  · simp [h0]
  by_cases h1 : v = 0x21#8
  · simp [h1]
  by_cases h2 : v = 0x22#8
  · simp [h2]
  by_cases h3 : v = 0x23#8
  · simp [h3]
  by_cases h4 : v = 0x24#8
  · simp [h4]
  by_cases h5 : v = 0x25#8
  · simp [h5]
  simp [h0, h1, h2, h3, h4, h5]

/-- Neither an instruction that stops the machine nor a TRAP with a plain vector. -/
def quiet (i : Instr) : Prop := i ≠ .rti ∧ i ≠ .res ∧ i ≠ .halt ∧ ∀ v, i ≠ .trap v

/-- Everything a next state `t` of `exec i s` can be, by the kind of `i`. `u` is the state after the bus reads. -/
inductive Shape (i : Instr) (s t : State) : Prop where
  /-- The value-producing instructions. -/
  | produce (u : State) (dr : Reg) (v : Word) (hu : KbdStep s u) (hl : s.latchWf = true → u.latchWf = true)
      (hf : flagReg i = some dr) (hd : destRegs i = [dr]) (hs : storeAddr i s = none)
      (hr : readsData i = false → u = s) (hi : quiet i) (e : t = u.produce dr v)
  /-- The stores. -/
  | store (u : State) (a v : Word) (hu : KbdStep s u) (hl : s.latchWf = true → u.latchWf = true)
      (hf : flagReg i = none) (hd : destRegs i = []) (hs : storeAddr i s = some a)
      (hr : readsData i = false → u = s) (hi : quiet i) (e : t = u.memWrite a v)
  /-- BR, NOP, JMP, RET. -/
  | jump (p : Word) (hf : flagReg i = none) (hd : destRegs i = []) (hs : storeAddr i s = none) (hi : quiet i)
      (e : t = s.setPc p)
  /-- JSR, JSRR. -/
  | call (p : Word) (hf : flagReg i = none) (hd : destRegs i = [7]) (hs : storeAddr i s = none) (hi : quiet i)
      (e : t = s.link.setPc p)
  /-- GETC, IN. -/
  | key (u : State) (v : Word) (hu : KbdOut s.link u) (hl : s.latchWf = true → u.latchWf = true)
      (ho : i = .getc ∨ i = .trap 0x20#8 → u.out = s.out)
      (hf : flagReg i = some 0) (hd : destRegs i = [7, 0]) (hs : storeAddr i s = none) (hr : readsData i = true)
      (hi : i = .getc ∨ i = .inp ∨ i = .trap 0x20#8 ∨ i = .trap 0x23#8) (e : t = u.produce 0 v)
  /-- OUT, PUTS, PUTSP, and TRAP with an unknown vector. -/
  | emits (ht : KbdOut s.link t) (hl : s.latchWf = true → t.latchWf = true)
      (hf : flagReg i = none) (hd : destRegs i = [7]) (hs : storeAddr i s = none)
      (hr : readsData i = false → t.kbdReady = s.kbdReady ∧ t.kbdByte = s.kbdByte ∧ t.kbd = s.kbd)
      (hi : i = .puts ∨ i = .putsp ∨ i = .out ∨ ∃ v, v ≠ 0x25#8 ∧ i = .trap v)
  /-- HALT. -/
  | halts (hf : flagReg i = none) (hd : destRegs i = [7]) (hs : storeAddr i s = none)
      (hi : i = .halt ∨ i = .trap 0x25#8) (e : t = { s.link.emit Config.haltText with run := .halted })
  /-- RTI, RES. -/
  | raises (op : BitVec 4) (hf : flagReg i = none) (hd : destRegs i = []) (hs : storeAddr i s = none)
      (hi : i = .rti ∧ op = 0x8#4 ∨ i = .res ∧ op = 0xD#4) (e : t = s.raiseUnimplementedOpcode op)

theorem shape_getc {s t : State} (i : Instr) (hi : i = .getc ∨ i = .trap 0x20#8)
    (h : trapGetc s.link = .next t) : Shape i s t := by
  obtain ⟨v, u, hu, e, hl⟩ := trapGetc_next h
  have ho : u.out = s.out := by
    obtain ⟨_, _, _, rfl⟩ := hu
    rfl
  rcases hi with rfl | rfl <;> exact .key u v hu.out hl (fun _ => ho) rfl rfl rfl rfl (by simp) e

theorem shape_in {s t : State} (i : Instr) (hi : i = .inp ∨ i = .trap 0x23#8)
    (h : trapIn s.link = .next t) : Shape i s t := by
  obtain ⟨v, u, hu, e, hl⟩ := trapIn_next h
  rcases hi with rfl | rfl <;> exact .key u v hu hl (by simp) rfl rfl rfl rfl (by simp) e

theorem shape_out {s t : State} (i : Instr) (hi : i = .out ∨ i = .trap 0x21#8)
    (h : trapOut s.link = .next t) : Shape i s t := by
  obtain rfl := next_inj h
  rcases hi with rfl | rfl <;>
    exact .emits (KbdOut.emit _ _) id rfl rfl rfl (fun _ => ⟨rfl, rfl, rfl⟩) (by simp)

theorem shape_puts {s t : State} (i : Instr) (hi : i = .puts ∨ i = .trap 0x22#8)
    (h : trapPuts s.link = .next t) : Shape i s t := by
  rcases hi with rfl | rfl <;>
    exact .emits (trapPuts_next h).1 (trapPuts_next h).2 rfl rfl rfl (by simp [readsData]) (by simp)

theorem shape_putsp {s t : State} (i : Instr) (hi : i = .putsp ∨ i = .trap 0x24#8)
    (h : trapPutsp s.link = .next t) : Shape i s t := by
  rcases hi with rfl | rfl <;>
    exact .emits (trapPutsp_next h).1 (trapPutsp_next h).2 rfl rfl rfl (by simp [readsData]) (by simp)

theorem shape_trap {v : BitVec 8} {s t : State} (h : exec (.trap v) s = .next t) : Shape (.trap v) s t := by
  rcases exec_trap_cases v s with ⟨rfl, e⟩ | ⟨rfl, e⟩ | ⟨rfl, e⟩ | ⟨rfl, e⟩ | ⟨rfl, e⟩ | ⟨rfl, e⟩ | ⟨hn, e⟩ <;>
    rw [e] at h
  · exact shape_getc _ (.inr rfl) h
  · exact shape_out _ (.inr rfl) h
  · exact shape_puts _ (.inr rfl) h
  · exact shape_in _ (.inr rfl) h
  · exact shape_putsp _ (.inr rfl) h
  · exact .halts rfl rfl rfl (.inr rfl) (next_inj h).symm
  · obtain rfl := next_inj h
    exact .emits (KbdStep.refl _).out id (by simp [flagReg, hn]) (by simp [destRegs, hn]) rfl
      (fun _ => ⟨rfl, rfl, rfl⟩) (by simp [hn])

/-- Everything a next state of `exec` can be. -/
theorem exec_shape {i : Instr} {s t : State} (h : exec i s = .next t) : Shape i s t := by
  cases i with
  | addReg a b c => exact .produce s a _ (.refl s) id rfl rfl rfl (fun _ => rfl) (by simp [quiet]) (next_inj h).symm
  | addImm a b c => exact .produce s a _ (.refl s) id rfl rfl rfl (fun _ => rfl) (by simp [quiet]) (next_inj h).symm
  | andReg a b c => exact .produce s a _ (.refl s) id rfl rfl rfl (fun _ => rfl) (by simp [quiet]) (next_inj h).symm
  | andImm a b c => exact .produce s a _ (.refl s) id rfl rfl rfl (fun _ => rfl) (by simp [quiet]) (next_inj h).symm
  | not a b => exact .produce s a _ (.refl s) id rfl rfl rfl (fun _ => rfl) (by simp [quiet]) (next_inj h).symm
  | lea a b => exact .produce s a _ (.refl s) id rfl rfl rfl (fun _ => rfl) (by simp [quiet]) (next_inj h).symm
  | ld a b =>
    exact .produce _ a _ (memRead_step s _) (memRead_latchWf s _) rfl rfl rfl (by simp [readsData])
      (by simp [quiet]) (next_inj h).symm
  | ldr a b c =>
    exact .produce _ a _ (memRead_step s _) (memRead_latchWf s _) rfl rfl rfl (by simp [readsData])
      (by simp [quiet]) (next_inj h).symm
  | ldi a b =>
    exact .produce _ a _ ((memRead_step s _).trans (memRead_step _ _))
      (fun x => memRead_latchWf _ _ (memRead_latchWf s _ x)) rfl rfl rfl (by simp [readsData]) (by simp [quiet])
      (next_inj h).symm
  | st a b => exact .store s _ _ (.refl s) id rfl rfl rfl (fun _ => rfl) (by simp [quiet]) (next_inj h).symm
  | str a b c => exact .store s _ _ (.refl s) id rfl rfl rfl (fun _ => rfl) (by simp [quiet]) (next_inj h).symm
  | sti a b =>
    exact .store _ _ _ (memRead_step s _) (memRead_latchWf s _) rfl rfl rfl (by simp [readsData])
      (by simp [quiet]) (next_inj h).symm
  | br n z p off =>
    refine .jump (if s.taken n z p then s.pcRel9 off else s.pc) rfl rfl rfl (by simp [quiet]) ?_
    rw [← next_inj h]
    split <;> rfl
  | nop off =>
    refine .jump s.pc rfl rfl rfl (by simp [quiet]) ?_
    rw [← next_inj h, State.taken]
    cases s.cond <;> rfl
  | jmp a => exact .jump _ rfl rfl rfl (by simp [quiet]) (next_inj h).symm
  | ret => exact .jump _ rfl rfl rfl (by simp [quiet]) (next_inj h).symm
  | jsr a => exact .call _ rfl rfl rfl (by simp [quiet]) (next_inj h).symm
  | jsrr a => exact .call _ rfl rfl rfl (by simp [quiet]) (next_inj h).symm
  | rti => exact .raises _ rfl rfl rfl (.inl ⟨rfl, rfl⟩) (next_inj h).symm
  | res => exact .raises _ rfl rfl rfl (.inr ⟨rfl, rfl⟩) (next_inj h).symm
  | getc => exact shape_getc _ (.inl rfl) h
  | inp => exact shape_in _ (.inl rfl) h
  | out => exact shape_out _ (.inl rfl) h
  | puts => exact shape_puts _ (.inl rfl) h
  | putsp => exact shape_putsp _ (.inl rfl) h
  | halt => exact .halts rfl rfl rfl (.inl rfl) (next_inj h).symm
  | trap v => exact shape_trap h

end Sys2Proof.Laws
end

