-- ==== Sys2Proof/Laws/PerInstr.lean ====
section
/-!
SUPPORT. Laws/PerInstr.lean: the top four bits of every instruction's word are the opcode that 30_encoding.md R52 gives
it, one lemma per constructor.
-/

namespace Sys2Proof.Laws

/-- The opcode map, by constructor (30_encoding.md R52). -/
def opcodeOf (i : Instr) : BitVec 4 :=
  match i with
  | .br _ _ _ _ | .nop _ => 0x0#4
  | .addReg _ _ _ | .addImm _ _ _ => 0x1#4
  | .ld _ _ => 0x2#4
  | .st _ _ => 0x3#4
  | .jsr _ | .jsrr _ => 0x4#4
  | .andReg _ _ _ | .andImm _ _ _ => 0x5#4
  | .ldr _ _ _ => 0x6#4
  | .str _ _ _ => 0x7#4
  | .rti => 0x8#4
  | .not _ _ => 0x9#4
  | .ldi _ _ => 0xA#4
  | .sti _ _ => 0xB#4
  | .jmp _ | .ret => 0xC#4
  | .res => 0xD#4
  | .lea _ _ => 0xE#4
  | .trap _ | .getc | .out | .puts | .inp | .putsp | .halt => 0xF#4

/-- The law of this family. -/
def OpcodeBits.Statement (i : Instr) : Prop := (encode i).extractLsb' 12 4 = opcodeOf i

theorem OpcodeBits.br (n : Bool) (z : Bool) (p : Bool) (off : BitVec 9) : OpcodeBits.Statement (.br n z p off) := by
  apply field_ext
  intro i hi
  interval_cases i <;> simp [encode, opcodeOf, getLsbD_put, -BitVec.getLsbD_eq_getElem]

theorem OpcodeBits.nop (off : BitVec 9) : OpcodeBits.Statement (.nop off) := by
  apply field_ext
  intro i hi
  interval_cases i <;> simp [encode, opcodeOf, getLsbD_put, -BitVec.getLsbD_eq_getElem]

theorem OpcodeBits.addReg (dr : Reg) (sr1 : Reg) (sr2 : Reg) : OpcodeBits.Statement (.addReg dr sr1 sr2) := by
  apply field_ext
  intro i hi
  interval_cases i <;> simp [encode, opcodeOf, getLsbD_put, putReg, -BitVec.getLsbD_eq_getElem]

theorem OpcodeBits.addImm (dr : Reg) (sr1 : Reg) (imm : BitVec 5) : OpcodeBits.Statement (.addImm dr sr1 imm) := by
  apply field_ext
  intro i hi
  interval_cases i <;> simp [encode, opcodeOf, getLsbD_put, putReg, -BitVec.getLsbD_eq_getElem]

theorem OpcodeBits.ld (dr : Reg) (off : BitVec 9) : OpcodeBits.Statement (.ld dr off) := by
  apply field_ext
  intro i hi
  interval_cases i <;> simp [encode, opcodeOf, getLsbD_put, putReg, -BitVec.getLsbD_eq_getElem]

theorem OpcodeBits.st (sr : Reg) (off : BitVec 9) : OpcodeBits.Statement (.st sr off) := by
  apply field_ext
  intro i hi
  interval_cases i <;> simp [encode, opcodeOf, getLsbD_put, putReg, -BitVec.getLsbD_eq_getElem]

theorem OpcodeBits.jsr (off : BitVec 11) : OpcodeBits.Statement (.jsr off) := by
  apply field_ext
  intro i hi
  interval_cases i <;> simp [encode, opcodeOf, getLsbD_put, -BitVec.getLsbD_eq_getElem]

theorem OpcodeBits.jsrr (base : Reg) : OpcodeBits.Statement (.jsrr base) := by
  apply field_ext
  intro i hi
  interval_cases i <;> simp [encode, opcodeOf, getLsbD_put, putReg, -BitVec.getLsbD_eq_getElem]

theorem OpcodeBits.andReg (dr : Reg) (sr1 : Reg) (sr2 : Reg) : OpcodeBits.Statement (.andReg dr sr1 sr2) := by
  apply field_ext
  intro i hi
  interval_cases i <;> simp [encode, opcodeOf, getLsbD_put, putReg, -BitVec.getLsbD_eq_getElem]

theorem OpcodeBits.andImm (dr : Reg) (sr1 : Reg) (imm : BitVec 5) : OpcodeBits.Statement (.andImm dr sr1 imm) := by
  apply field_ext
  intro i hi
  interval_cases i <;> simp [encode, opcodeOf, getLsbD_put, putReg, -BitVec.getLsbD_eq_getElem]

theorem OpcodeBits.ldr (dr : Reg) (base : Reg) (off : BitVec 6) : OpcodeBits.Statement (.ldr dr base off) := by
  apply field_ext
  intro i hi
  interval_cases i <;> simp [encode, opcodeOf, getLsbD_put, putReg, -BitVec.getLsbD_eq_getElem]

theorem OpcodeBits.str (sr : Reg) (base : Reg) (off : BitVec 6) : OpcodeBits.Statement (.str sr base off) := by
  apply field_ext
  intro i hi
  interval_cases i <;> simp [encode, opcodeOf, getLsbD_put, putReg, -BitVec.getLsbD_eq_getElem]

theorem OpcodeBits.rti : OpcodeBits.Statement (.rti) := by
  unfold OpcodeBits.Statement
  decide

theorem OpcodeBits.not (dr : Reg) (sr : Reg) : OpcodeBits.Statement (.not dr sr) := by
  apply field_ext
  intro i hi
  interval_cases i <;> simp [encode, opcodeOf, getLsbD_put, putReg, -BitVec.getLsbD_eq_getElem]

theorem OpcodeBits.ldi (dr : Reg) (off : BitVec 9) : OpcodeBits.Statement (.ldi dr off) := by
  apply field_ext
  intro i hi
  interval_cases i <;> simp [encode, opcodeOf, getLsbD_put, putReg, -BitVec.getLsbD_eq_getElem]

theorem OpcodeBits.sti (sr : Reg) (off : BitVec 9) : OpcodeBits.Statement (.sti sr off) := by
  apply field_ext
  intro i hi
  interval_cases i <;> simp [encode, opcodeOf, getLsbD_put, putReg, -BitVec.getLsbD_eq_getElem]

theorem OpcodeBits.jmp (base : Reg) : OpcodeBits.Statement (.jmp base) := by
  apply field_ext
  intro i hi
  interval_cases i <;> simp [encode, opcodeOf, getLsbD_put, putReg, -BitVec.getLsbD_eq_getElem]

theorem OpcodeBits.ret : OpcodeBits.Statement (.ret) := by
  unfold OpcodeBits.Statement
  decide

theorem OpcodeBits.res : OpcodeBits.Statement (.res) := by
  unfold OpcodeBits.Statement
  decide

theorem OpcodeBits.lea (dr : Reg) (off : BitVec 9) : OpcodeBits.Statement (.lea dr off) := by
  apply field_ext
  intro i hi
  interval_cases i <;> simp [encode, opcodeOf, getLsbD_put, putReg, -BitVec.getLsbD_eq_getElem]

theorem OpcodeBits.trap (vect : BitVec 8) : OpcodeBits.Statement (.trap vect) := by
  apply field_ext
  intro i hi
  interval_cases i <;> simp [encode, opcodeOf, getLsbD_put, -BitVec.getLsbD_eq_getElem]

theorem OpcodeBits.getc : OpcodeBits.Statement (.getc) := by
  unfold OpcodeBits.Statement
  decide

theorem OpcodeBits.out : OpcodeBits.Statement (.out) := by
  unfold OpcodeBits.Statement
  decide

theorem OpcodeBits.puts : OpcodeBits.Statement (.puts) := by
  unfold OpcodeBits.Statement
  decide

theorem OpcodeBits.inp : OpcodeBits.Statement (.inp) := by
  unfold OpcodeBits.Statement
  decide

theorem OpcodeBits.putsp : OpcodeBits.Statement (.putsp) := by
  unfold OpcodeBits.Statement
  decide

theorem OpcodeBits.halt : OpcodeBits.Statement (.halt) := by
  unfold OpcodeBits.Statement
  decide

/-- The law holds of every instruction. -/
theorem opcodeBits (i : Instr) : (encode i).extractLsb' 12 4 = opcodeOf i := by
  cases i with
  | br n z p off => exact OpcodeBits.br n z p off
  | nop off => exact OpcodeBits.nop off
  | addReg dr sr1 sr2 => exact OpcodeBits.addReg dr sr1 sr2
  | addImm dr sr1 imm => exact OpcodeBits.addImm dr sr1 imm
  | ld dr off => exact OpcodeBits.ld dr off
  | st sr off => exact OpcodeBits.st sr off
  | jsr off => exact OpcodeBits.jsr off
  | jsrr base => exact OpcodeBits.jsrr base
  | andReg dr sr1 sr2 => exact OpcodeBits.andReg dr sr1 sr2
  | andImm dr sr1 imm => exact OpcodeBits.andImm dr sr1 imm
  | ldr dr base off => exact OpcodeBits.ldr dr base off
  | str sr base off => exact OpcodeBits.str sr base off
  | rti => exact OpcodeBits.rti
  | not dr sr => exact OpcodeBits.not dr sr
  | ldi dr off => exact OpcodeBits.ldi dr off
  | sti sr off => exact OpcodeBits.sti sr off
  | jmp base => exact OpcodeBits.jmp base
  | ret => exact OpcodeBits.ret
  | res => exact OpcodeBits.res
  | lea dr off => exact OpcodeBits.lea dr off
  | trap vect => exact OpcodeBits.trap vect
  | getc => exact OpcodeBits.getc
  | out => exact OpcodeBits.out
  | puts => exact OpcodeBits.puts
  | inp => exact OpcodeBits.inp
  | putsp => exact OpcodeBits.putsp
  | halt => exact OpcodeBits.halt

end Sys2Proof.Laws
end

