-- ==== Sys2Proof/Laws/Scan.lean ====
section
/-!
SUPPORT. Laws/Scan.lean: the scan of PUTS cut into pieces, for statements about scans of any length.
-/

namespace Sys2Proof.Laws

open Sys2Proof.Machine

/-- The state of PUTS's scan after `n` cells from address `a`, when none of them is zero. -/
def scanState (n : Nat) (a : Word) (s : State) : State :=
  match n with
  | 0 => s
  | n + 1 => scanState n (a + 1#16) ((s.memRead a).2.emit [lowByte (s.memRead a).1])

theorem add_succ (a : Word) (n : Nat) : a + 1#16 + BitVec.ofNat 16 n = a + BitVec.ofNat 16 (n + 1) := by
  rw [BitVec.add_assoc, Nat.add_comm n 1, BitVec.ofNat_add]

/-- Every address is met in a round of 65536. -/
theorem reach (a b : Word) : ∃ k, k < 65536 ∧ a + BitVec.ofNat 16 k = b := by
  refine ⟨(b - a).toNat, (b - a).isLt, ?_⟩
  rw [BitVec.ofNat_toNat, BitVec.setWidth_eq, BitVec.add_comm]
  exact BitVec.sub_add_cancel b a

/-- A scan of `j + f` cells is one of `j` cells and then one of `f` cells. -/
theorem scanPuts_add (j f : Nat) (a : Word) (s : State) :
    scanPuts (j + f) a s = none ↔
      scanPuts j a s = none ∧ scanPuts f (a + BitVec.ofNat 16 j) (scanState j a s) = none := by
  induction j generalizing a s with
  | zero => simp [scanPuts, scanState]
  | succ j ih =>
    rw [Nat.add_right_comm, ← add_succ]
    simp only [scanPuts, scanState]
    split
    · simp
    · exact ih _ _

theorem scanPuts_mono {j f : Nat} (a : Word) (s : State) (h : scanPuts j a s = none) (hf : f ≤ j) :
    scanPuts f a s = none := by
  obtain ⟨k, rfl⟩ := Nat.exists_eq_add_of_le hf
  exact ((scanPuts_add f k a s).1 h).1

theorem scanState_out (j : Nat) (a : Word) (s : State) : KbdOut s (scanState j a s) := by
  induction j generalizing a s with
  | zero => exact (KbdStep.refl s).out
  | succ j ih => exact (memRead_step s a).out.trans ((KbdOut.emit _ _).trans (ih _ _))

/-- Over plain cells the scan changes nothing but the output. -/
theorem scanState_plain (j : Nat) (a : Word) (s : State)
    (h : ∀ k, k < j → plain (a + BitVec.ofNat 16 k) = true) : ∃ o, scanState j a s = { s with out := o } := by
  induction j generalizing a s with
  | zero => exact ⟨_, rfl⟩
  | succ j ih =>
    have h0 := h 0 (by omega)
    simp only [BitVec.add_zero] at h0
    simp only [scanState, memRead_plain s h0]
    obtain ⟨o, ho⟩ := ih (a + 1#16) (s.emit [lowByte (s.mem.read a)])
      (fun k hk => add_succ a k ▸ h _ (by omega))
    exact ⟨o, by rw [ho]; rfl⟩

/-- A bus read of PUTS's scan that can only meet non-zero words meets one, and leaves the next read so: `a` is not
about to read an empty latch, every plain cell is non-zero and every poll delivers a non-zero byte. -/
def Endless (a : Word) (s : State) : Prop :=
  (∀ c, plain c = true → s.mem.read c ≠ 0x0000#16) ∧
  (∀ j, ∃ b, s.kbd.answer j = some b ∧ b ≠ 0x00#8) ∧
  (s.kbdReady = true ∧ s.kbdByte ≠ 0x00#8 ∨ s.kbdReady = false ∧ a ≠ 0xFE01#16 ∧ a ≠ 0xFE02#16)

theorem setWidth_ne_zero {b : Byte} (h : b ≠ 0x00#8) : b.setWidth 16 ≠ 0x0000#16 := by
  intro e
  apply h
  have e := congrArg BitVec.toNat e
  apply BitVec.eq_of_toNat_eq
  have := b.isLt
  simp at *
  omega

theorem endless_step {a : Word} {s : State} (h : Endless a s) (o : List Byte) :
    (s.memRead a).1 ≠ 0x0000#16 ∧ Endless (a + 1#16) ((s.memRead a).2.emit o) := by
  obtain ⟨hm, hk, hl⟩ := h
  have n1 : a ≠ 0xFE00#16 → a + 1#16 ≠ 0xFE01#16 := fun h e => h (by bv_omega)
  have n2 : a ≠ 0xFE01#16 → a + 1#16 ≠ 0xFE02#16 := fun h e => h (by bv_omega)
  rcases memRead_cases s a with ⟨p, e⟩ | ⟨_, r, e⟩ | ⟨_, _, p, e⟩ | ⟨b, _, _, p, e⟩ | ⟨q, r, e⟩ | ⟨q, r, e⟩ <;> rw [e]
  · refine ⟨hm a p, hm, hk, ?_⟩
    have p : a ≠ 0xFE00#16 := fun h => absurd p (by rw [h]; decide)
    rcases hl with l | ⟨l, l1, _⟩
    · exact .inl l
    · exact .inr ⟨l, n1 p, n2 l1⟩
  · refine ⟨by simp, hm, hk, ?_⟩
    rcases hl with l | ⟨l, _⟩
    · exact .inl l
    · rw [r] at l
      cases l
  · obtain ⟨b, hb, _⟩ := hk 0
    rw [answer_zero, p] at hb
    cases hb
  · obtain ⟨b', hb, hz⟩ := hk 0
    rw [answer_zero, p] at hb
    cases hb
    exact ⟨by simp, hm, fun j => hk (j + 1), .inl ⟨rfl, hz⟩⟩
  · rcases hl with ⟨_, l⟩ | ⟨l, _⟩
    · exact ⟨setWidth_ne_zero l, hm, hk, .inr ⟨rfl, by rw [q]; decide, by rw [q]; decide⟩⟩
    · rw [r] at l
      cases l
  · rcases hl with ⟨l, _⟩ | ⟨_, _, l⟩
    · rw [r] at l
      cases l
    · exact absurd q l

/-- A scan that can only meet non-zero words never ends (44_trap.md R113). -/
theorem scanPuts_endless (fuel : Nat) {a : Word} {s : State} (h : Endless a s) : scanPuts fuel a s = none := by
  induction fuel generalizing a s with
  | zero => rfl
  | succ n ih =>
    obtain ⟨hz, hn⟩ := endless_step h [lowByte (s.memRead a).1]
    simp only [scanPuts, if_neg hz]
    exact ih hn

end Sys2Proof.Laws
end

