-- ==== Sys2Proof/Tests/Slice0.lean ====
section
/-!
SUPPORT. Slice0.lean: the model's own tests. Expected results are those of spec/95_test_vectors.md (its sections are
named) or are computed by hand from the rule named; words are written bit by bit from 30_encoding.md R52, R53.
-/

namespace Sys2Proof.Tests

open Sys2Proof Sys2Proof.Machine

/-! ## Helpers -/

/-- A next state of which `p` holds. -/
def after (o : Result) (p : State → Bool) : Bool :=
  match o with
  | .next t => p t
  | .fault _ => false
  | .refused _ => false

/-- A fault of which `p` holds. -/
def faultIs (o : Result) (p : Fault → Bool) : Bool :=
  match o with
  | .fault f => p f
  | .next _ => false
  | .refused _ => false

theorem next_of_after {o : Result} {p : State → Bool} (h : after o p = true) : ∃ t, o = .next t ∧ p t = true := by
  cases o with
  | next t => exact ⟨t, rfl, h⟩
  | fault _ => cases h
  | refused _ => cases h

/-- Memory from a list of cells. -/
def cells (l : List (Word × Word)) : Memory := l.foldr (fun c m => m.write c.1 c.2) []

/-- A terminal that delivers these answers and then nothing. -/
def keys (l : List PollAnswer) : Kbd := { now := l, rest := .silent }

/-- A running machine at `at`, with nothing latched and a silent terminal, over the given registers and cells; the
cells include the instruction. -/
def mk (at' : Word) (regs : Vector Word 8) (l : List (Word × Word)) : State :=
  { State.resetWith at' (cells l) (keys []) with regs := regs }

/-- The same, with the byte latched. -/
def latched (s : State) (b : Byte) : State := { s with kbdReady := true, kbdByte := b }

/-- All registers zero. -/
def r0 : Vector Word 8 := Vector.replicate 8 0#16

/-- `x[i] = v`, the rest zero. -/
def r1 (i : Fin 8) (v : Word) : Vector Word 8 := r0.set i v

/-- `x[i] = v`, `x[j] = w`, the rest zero. -/
def r2 (i : Fin 8) (v : Word) (j : Fin 8) (w : Word) : Vector Word 8 := (r1 i v).set j w

/-! ## Well-formedness: for each check a term that it refuses -/

theorem test_wf_refuses_br_without_condition : WellFormed (.br false false false 0x010#9) = false := by decide

theorem test_wf_refuses_jmp_through_r7 : WellFormed (.jmp 7) = false := by decide

theorem test_wf_refuses_trap_with_routine_vector :
    WellFormed (.trap 0x20#8) = false ∧ WellFormed (.trap 0x25#8) = false := by decide

theorem test_wf_accepts :
    WellFormed (.br false false true 0x010#9) = true ∧ WellFormed (.jmp 6) = true ∧
    WellFormed (.trap 0x1F#8) = true ∧ WellFormed (.trap 0x26#8) = true ∧ WellFormed (.nop 0#9) = true := by decide

/-! ## Decoding: every constructor, from a word written out from 30_encoding.md R52 and R53 -/

theorem test_decode_br :
    decode 0b0000_1_0_1_000010000#16 = .br true false true 0x010#9 ∧ encode (.br true false true 0x010#9) = 0b0000_1_0_1_000010000#16 := by decide

theorem test_decode_nop :
    decode 0b0000_0_0_0_000010000#16 = .nop 0x010#9 ∧ encode (.nop 0x010#9) = 0b0000_0_0_0_000010000#16 := by decide

theorem test_decode_addReg :
    decode 0b0001_011_101_0_00_110#16 = .addReg 3 5 6 ∧ encode (.addReg 3 5 6) = 0b0001_011_101_0_00_110#16 := by decide

theorem test_decode_addImm :
    decode 0b0001_000_001_1_11101#16 = .addImm 0 1 0b11101#5 ∧ encode (.addImm 0 1 0b11101#5) = 0b0001_000_001_1_11101#16 := by decide

theorem test_decode_ld :
    decode 0b0010_010_100000111#16 = .ld 2 0b100000111#9 ∧ encode (.ld 2 0b100000111#9) = 0b0010_010_100000111#16 := by decide

theorem test_decode_st :
    decode 0b0011_110_000000101#16 = .st 6 0b000000101#9 ∧ encode (.st 6 0b000000101#9) = 0b0011_110_000000101#16 := by decide

theorem test_decode_jsr :
    decode 0b0100_1_10000000011#16 = .jsr 0b10000000011#11 ∧ encode (.jsr 0b10000000011#11) = 0b0100_1_10000000011#16 := by decide

theorem test_decode_jsrr :
    decode 0b0100_0_00_101_000000#16 = .jsrr 5 ∧ encode (.jsrr 5) = 0b0100_0_00_101_000000#16 := by decide

theorem test_decode_andReg :
    decode 0b0101_000_001_0_00_101#16 = .andReg 0 1 5 ∧ encode (.andReg 0 1 5) = 0b0101_000_001_0_00_101#16 := by decide

theorem test_decode_andImm :
    decode 0b0101_010_011_1_10000#16 = .andImm 2 3 0b10000#5 ∧ encode (.andImm 2 3 0b10000#5) = 0b0101_010_011_1_10000#16 := by decide

theorem test_decode_ldr :
    decode 0b0110_011_001_100000#16 = .ldr 3 1 0b100000#6 ∧ encode (.ldr 3 1 0b100000#6) = 0b0110_011_001_100000#16 := by decide

theorem test_decode_str :
    decode 0b0111_010_110_111111#16 = .str 2 6 0b111111#6 ∧ encode (.str 2 6 0b111111#6) = 0b0111_010_110_111111#16 := by decide

theorem test_decode_rti :
    decode 0b1000_000000000000#16 = .rti ∧ encode (.rti) = 0b1000_000000000000#16 := by decide

theorem test_decode_not :
    decode 0b1001_100_010_111111#16 = .not 4 2 ∧ encode (.not 4 2) = 0b1001_100_010_111111#16 := by decide

theorem test_decode_ldi :
    decode 0b1010_001_000000100#16 = .ldi 1 0b000000100#9 ∧ encode (.ldi 1 0b000000100#9) = 0b1010_001_000000100#16 := by decide

theorem test_decode_sti :
    decode 0b1011_111_000001000#16 = .sti 7 0b000001000#9 ∧ encode (.sti 7 0b000001000#9) = 0b1011_111_000001000#16 := by decide

theorem test_decode_jmp :
    decode 0b1100_000_010_000000#16 = .jmp 2 ∧ encode (.jmp 2) = 0b1100_000_010_000000#16 := by decide

theorem test_decode_ret :
    decode 0b1100_000_111_000000#16 = .ret ∧ encode (.ret) = 0b1100_000_111_000000#16 := by decide

theorem test_decode_res :
    decode 0b1101_000000000000#16 = .res ∧ encode (.res) = 0b1101_000000000000#16 := by decide

theorem test_decode_lea :
    decode 0b1110_001_000001010#16 = .lea 1 0b000001010#9 ∧ encode (.lea 1 0b000001010#9) = 0b1110_001_000001010#16 := by decide

theorem test_decode_trap :
    decode 0b1111_0000_00100110#16 = .trap 0x26#8 ∧ encode (.trap 0x26#8) = 0b1111_0000_00100110#16 := by decide

theorem test_decode_getc :
    decode 0b1111_0000_00100000#16 = .getc ∧ encode (.getc) = 0b1111_0000_00100000#16 := by decide

theorem test_decode_out :
    decode 0b1111_0000_00100001#16 = .out ∧ encode (.out) = 0b1111_0000_00100001#16 := by decide

theorem test_decode_puts :
    decode 0b1111_0000_00100010#16 = .puts ∧ encode (.puts) = 0b1111_0000_00100010#16 := by decide

theorem test_decode_inp :
    decode 0b1111_0000_00100011#16 = .inp ∧ encode (.inp) = 0b1111_0000_00100011#16 := by decide

theorem test_decode_putsp :
    decode 0b1111_0000_00100100#16 = .putsp ∧ encode (.putsp) = 0b1111_0000_00100100#16 := by decide

theorem test_decode_halt :
    decode 0b1111_0000_00100101#16 = .halt ∧ encode (.halt) = 0b1111_0000_00100101#16 := by decide

theorem test_decode_ignored_bits :
    decode 0x105A#16 = .addReg 0 1 2 ∧ decode 0x9040#16 = .not 0 1 ∧ decode 0xCEBF#16 = .jmp 2 ∧
    decode 0x46BF#16 = .jsrr 2 ∧ decode 0xFF21#16 = .out ∧ decode 0x8FFF#16 = .rti ∧ decode 0xDABC#16 = .res := by
  decide

theorem test_table_word : decodeTableWord 16 0x107D = some (.addImm 0 1 0b11101#5) ∧ decodeTableWord 17 0 = none := by
  decide

/-! ## Sign extension, flags (95_test_vectors.md 2.1, 2.2) -/

theorem test_sext :
    sext 0b10000#5 = 0xFFF0#16 ∧ sext 0b011111#6 = 0x001F#16 ∧ sext 0b100000000#9 = 0xFF00#16 ∧
    sext 0b01111111111#11 = 0x03FF#16 := by decide

theorem test_flags :
    flagOf 0x0000#16 = .zero ∧ flagOf 0x7FFF#16 = .positive ∧ flagOf 0x8000#16 = .negative ∧
    flagOf 0xFFFF#16 = .negative := by decide

/-! ## One step of every instruction (95_test_vectors.md 2.3 to 2.9) -/

theorem test_add_reg_overflows :
    after (step (mk 0x3000#16 (r2 1 0x7FFF#16 2 0x0001#16) [(0x3000#16, 0x1042#16)]))
      (fun t => t.reg 0 == 0x8000#16 && t.cond == .negative && t.pc == 0x3001#16) = true := by
  decide

theorem test_add_reg_same_register :
    after (step (mk 0x3000#16 (r1 1 0x4001#16) [(0x3000#16, 0x1241#16)]))
      (fun t => t.reg 1 == 0x8002#16 && t.cond == .negative) = true := by
  decide

theorem test_add_imm_negative :
    after (step (mk 0x3000#16 (r1 1 0x0005#16) [(0x3000#16, 0x107D#16)]))
      (fun t => t.reg 0 == 0x0002#16 && t.cond == .positive) = true := by
  decide

theorem test_add_imm_wraps :
    after (step (mk 0x3000#16 (r1 1 0xFFF1#16) [(0x3000#16, 0x106F#16)]))
      (fun t => t.reg 0 == 0x0000#16 && t.cond == .zero) = true := by
  decide

theorem test_and_reg_reads_r5 :
    after (step (mk 0x3000#16 (r2 1 0xFFFF#16 5 0x1234#16) [(0x3000#16, 0x5045#16)]))
      (fun t => t.reg 0 == 0x1234#16 && t.cond == .positive) = true := by
  decide

theorem test_and_imm_sign_extends :
    after (step (mk 0x3000#16 (r1 3 0xABCD#16) [(0x3000#16, 0x54F0#16)]))
      (fun t => t.reg 2 == 0xABC0#16 && t.cond == .negative) = true := by
  decide

theorem test_not :
    after (step (mk 0x3000#16 (r1 1 0x8000#16) [(0x3000#16, 0x907F#16)]))
      (fun t => t.reg 0 == 0x7FFF#16 && t.cond == .positive) = true := by
  decide

theorem test_not_in_place :
    after (step (mk 0x3000#16 (r1 2 0x0019#16) [(0x3000#16, 0x94BF#16)]))
      (fun t => t.reg 2 == 0xFFE6#16 && t.cond == .negative) = true := by
  decide

theorem test_ld_wraps :
    after (step (mk 0xFFFF#16 r0 [(0xFFFF#16, 0x2000#16), (0x0000#16, 0x8001#16)]))
      (fun t => t.reg 0 == 0x8001#16 && t.cond == .negative && t.pc == 0x0000#16) = true := by
  decide

theorem test_ld_reads_itself :
    after (step (mk 0x3000#16 r0 [(0x3000#16, 0x21FF#16)]))
      (fun t => t.reg 0 == 0x21FF#16 && t.cond == .positive) = true := by
  decide

theorem test_ldi_pointer :
    after (step (mk 0x3004#16 r0 [(0x3004#16, 0xA807#16), (0x300C#16, 0x4000#16), (0x4000#16, 0xFFF1#16)]))
      (fun t => t.reg 4 == 0xFFF1#16 && t.cond == .negative) = true := by
  decide

theorem test_ldi_keyboard_data :
    after (step (latched (mk 0x3004#16 r0 [(0x3004#16, 0xA003#16), (0x3008#16, 0xFE02#16)]) 0x61#8))
      (fun t => t.reg 0 == 0x0061#16 && t.cond == .positive && !t.kbdReady && t.kbdByte == 0x00#8) = true := by
  decide

theorem test_ldr_dr_is_base :
    after (step (mk 0x3000#16 (r1 1 0x4000#16) [(0x3000#16, 0x6240#16), (0x4000#16, 0x4001#16)]))
      (fun t => t.reg 1 == 0x4001#16 && t.cond == .positive) = true := by
  decide

theorem test_ldr_wraps :
    after (step (mk 0x3000#16 r0 [(0x3000#16, 0x607F#16), (0xFFFF#16, 0x0007#16)]))
      (fun t => t.reg 0 == 0x0007#16 && t.cond == .positive) = true := by
  decide

theorem test_lea_does_not_poll :
    after (step ({ mk 0xFE01#16 r0 [(0xFE01#16, 0xE1FE#16)] with kbd := keys [.ready 0x78#8] }))
      (fun t => t.reg 0 == 0xFE00#16 && t.cond == .negative && !t.kbdReady && t.kbd.now == [.ready 0x78#8]) = true := by
  decide

theorem test_lea_zero :
    after (step (mk 0xFFFF#16 r0 [(0xFFFF#16, 0xEA00#16)]))
      (fun t => t.reg 5 == 0x0000#16 && t.cond == .zero && t.pc == 0x0000#16) = true := by
  decide

theorem test_st :
    after (step (mk 0x3008#16 (r1 0 0x0013#16) [(0x3008#16, 0x3005#16)]))
      (fun t => t.mem.read 0x300E#16 == 0x0013#16 && t.cond == .zero && t.pc == 0x3009#16) = true := by
  decide

theorem test_st_wraps :
    after (step (mk 0xFFFF#16 (r1 3 0xAAAA#16) [(0xFFFF#16, 0x3600#16)]))
      (fun t => t.mem.read 0x0000#16 == 0xAAAA#16 && t.pc == 0x0000#16) = true := by
  decide

theorem test_sti :
    after (step (mk 0x3003#16 (r1 0 0xFFF1#16) [(0x3003#16, 0xB008#16), (0x300C#16, 0x4000#16)]))
      (fun t => t.mem.read 0x4000#16 == 0xFFF1#16 && t.mem.read 0x300C#16 == 0x4000#16) = true := by
  decide

theorem test_sti_to_keyboard_data :
    after (step (latched (mk 0x3000#16 (r1 1 0x0055#16) [(0x3000#16, 0xB202#16), (0x3003#16, 0xFE02#16)]) 0x41#8))
      (fun t => t.kbdReady && (t.memRead 0xFE02#16).1 == 0x0041#16) = true := by
  decide

theorem test_str_negative_offset :
    after (step (mk 0x3000#16 (r2 2 0x00AA#16 6 0x4000#16) [(0x3000#16, 0x75BF#16)]))
      (fun t => t.mem.read 0x3FFF#16 == 0x00AA#16) = true := by
  decide

theorem test_str_sr_is_base :
    after (step (mk 0x3000#16 (r1 6 0x4000#16) [(0x3000#16, 0x7D80#16)]))
      (fun t => t.mem.read 0x4000#16 == 0x4000#16) = true := by
  decide

theorem test_br_taken :
    after (step ({ mk 0x3007#16 r0 [(0x3007#16, 0x03FB#16)] with cond := .positive }))
      (fun t => t.pc == 0x3003#16) = true := by
  decide

theorem test_br_not_taken :
    after (step ({ mk 0x3007#16 r0 [(0x3007#16, 0x03FB#16)] with cond := .zero }))
      (fun t => t.pc == 0x3008#16 && t.cond == .zero) = true := by
  decide

theorem test_nop :
    after (step (mk 0x3000#16 r0 [(0x3000#16, 0x0010#16)]))
      (fun t => t.pc == 0x3001#16) = true := by
  decide

theorem test_jmp :
    after (step (mk 0x3000#16 (r1 2 0xFFFF#16) [(0x3000#16, 0xC080#16)]))
      (fun t => t.pc == 0xFFFF#16) = true := by
  decide

theorem test_ret :
    after (step (mk 0x3000#16 (r1 7 0x3003#16) [(0x3000#16, 0xC1C0#16)]))
      (fun t => t.pc == 0x3003#16 && t.reg 7 == 0x3003#16) = true := by
  decide

theorem test_jsr :
    after (step (mk 0x3000#16 r0 [(0x3000#16, 0x4C00#16)]))
      (fun t => t.reg 7 == 0x3001#16 && t.pc == 0x2C01#16) = true := by
  decide

theorem test_jsrr :
    after (step (mk 0x3010#16 (r1 2 0x5000#16) [(0x3010#16, 0x4080#16)]))
      (fun t => t.reg 7 == 0x3011#16 && t.pc == 0x5000#16) = true := by
  decide

theorem test_jsrr_r7 :
    after (step (mk 0x3010#16 (r1 7 0x5000#16) [(0x3010#16, 0x41C0#16)]))
      (fun t => t.reg 7 == 0x3011#16 && t.pc == 0x3011#16) = true := by
  decide

theorem test_rti :
    after (step (mk 0x3000#16 (r1 1 0x0007#16) [(0x3000#16, 0x8FFF#16)]))
      (fun t => t.pc == 0x3001#16 && t.run == .faulted && t.faultOpcode == 0x8#4 && t.reg 1 == 0x0007#16) = true := by
  decide

theorem test_res :
    after (step (mk 0x3000#16 r0 [(0x3000#16, 0xDABC#16)]))
      (fun t => t.pc == 0x3001#16 && t.run == .faulted && t.faultOpcode == 0xD#4) = true := by
  decide

theorem test_trap_unknown :
    after (step ({ mk 0x3000#16 (r1 0 0x0005#16) [(0x3000#16, 0xF000#16)] with cond := .positive }))
      (fun t => t.reg 7 == 0x3001#16 && t.pc == 0x3001#16 && t.reg 0 == 0x0005#16 && t.cond == .positive && t.run == .running) = true := by
  decide

theorem test_getc_fourth_poll :
    after (step ({ mk 0x3000#16 r0 [(0x3000#16, 0xF020#16)] with
      kbd := keys [.notReady, .notReady, .notReady, .ready 0x61#8, .ready 0x62#8] }))
      (fun t => t.reg 0 == 0x0061#16 && t.reg 7 == 0x3001#16 && t.cond == .positive && !t.kbdReady &&
        t.kbd.now == [.ready 0x62#8] && t.out == []) = true := by
  decide

theorem test_getc_latched :
    after (step ({ latched (mk 0x3000#16 r0 [(0x3000#16, 0xF020#16)]) 0x71#8 with kbd := keys [.ready 0x7A#8] }))
      (fun t => t.reg 0 == 0x0071#16 && t.kbd.now == [.ready 0x7A#8]) = true := by
  decide

theorem test_out :
    after (step (mk 0x3005#16 (r1 0 0x1248#16) [(0x3005#16, 0xF021#16)]))
      (fun t => t.out == [0x48#8] && t.reg 7 == 0x3006#16 && t.pc == 0x3006#16) = true := by
  decide

/-- A zero low byte in a non-zero cell does not end the string. -/
theorem test_puts :
    after (step (mk 0x3000#16 (r1 0 0x4000#16) [(0x3000#16, 0xF022#16), (0x4000#16, 0x4100#16), (0x4001#16, 0x0142#16)]))
      (fun t => t.out == [0x00#8, 0x42#8] && t.reg 0 == 0x4000#16 && t.reg 7 == 0x3001#16) = true := by
  decide +kernel

theorem test_puts_wraps :
    after (step (mk 0x3000#16 (r1 0 0xFFFF#16) [(0x3000#16, 0xF022#16), (0xFFFF#16, 0x0041#16), (0x0000#16, 0x0042#16)]))
      (fun t => t.out == [0x41#8, 0x42#8]) = true := by
  decide +kernel

theorem test_in :
    after (step ({ mk 0x3000#16 r0 [(0x3000#16, 0xF023#16)] with kbd := keys [.ready 0x41#8] }))
      (fun t => t.reg 0 == 0x0041#16 && t.reg 7 == 0x3001#16 && t.cond == .positive && !t.kbdReady) = true := by
  decide

theorem test_putsp :
    after (step (mk 0x3000#16 (r1 0 0x4000#16)
      [(0x3000#16, 0xF024#16), (0x4000#16, 0x4948#16), (0x4001#16, 0x0021#16), (0x4002#16, 0x4141#16)]))
      (fun t => t.out == [0x48#8, 0x49#8, 0x21#8]) = true := by
  decide +kernel

theorem test_putsp_zero_low_byte :
    after (step (mk 0x3000#16 (r1 0 0x4000#16) [(0x3000#16, 0xF024#16), (0x4000#16, 0x4100#16), (0x4001#16, 0x4242#16)]))
      (fun t => t.out == []) = true := by
  decide +kernel

theorem test_halt :
    after (step ({ mk 0x3009#16 r0 [(0x3009#16, 0xF025#16)] with cond := .negative }))
      (fun t => t.reg 7 == 0x300A#16 && t.pc == 0x300A#16 && t.run == .halted && t.cond == .negative) = true := by
  decide

/-- 44_trap.md R103: a key that never comes. -/
theorem test_getc_hangs :
    faultIs (step (mk 0x3000#16 r0 [(0x3000#16, 0xF020#16)])) (fun f => f ==
      .keyWait { mk 0x3001#16 (r1 7 0x3001#16) [(0x3000#16, 0xF020#16)] with run := .running }) = true := by decide

/-- 95_test_vectors.md 2.8, rows 3 to 6. -/
theorem test_keyboard_sequence :
    let a := { mk 0x3000#16 r0 [] with kbd := keys [.ready 0x71#8, .ready 0x72#8] }
    let b := a.memRead 0xFE00#16
    let c := b.2.memRead 0xFE00#16
    let d := c.2.memRead 0xFE02#16
    let e := d.2.memRead 0xFE02#16
    b.1 = 0x8000#16 ∧ c.1 = 0x8000#16 ∧ d.1 = 0x0071#16 ∧ e.1 = 0x0000#16 ∧ e.2.kbdReady = false ∧
    e.2.kbd.now = [.ready 0x72#8] := by decide

/-- 95_test_vectors.md 2.10, first row. -/
theorem test_fetch_status_register :
    after (step { mk 0xFE00#16 r0 [] with kbd := keys [.ready 0x6B#8] })
      (fun t => t.pc == 0xFE01#16 && t.run == .faulted && t.faultOpcode == 0x8#4 && t.kbdReady) = true := by decide

/-- A halted and a faulted machine take no step (10_state.md R18). -/
theorem test_no_step :
    faultIs (step { State.reset with run := .halted }) (fun f => f == .halted) = true ∧
    faultIs (step { State.reset with run := .faulted, faultOpcode := 0xD#4 }) (fun f => f == .faulted 0xD#4) = true := by
  decide

/-- A word placed for the host's row test is the one that runs. -/
theorem test_with_fetch_word :
    after (step (State.reset.withFetchWord 16 0x1021)) (fun t => t.reg 0 == 0x0001#16) = true := by decide

/-- 70_reset_and_hazards.md R142: 30 00 12 34 is one word, 0x1234, at 0x3000. -/
theorem test_boot_image :
    (match bootImage [0x30#8, 0x00#8, 0x12#8, 0x34#8] (keys []) with
      | some s => s.pc == 0x3000#16 && s.mem.read 0x3000#16 == 0x1234#16
      | none => false) = true ∧
    bootImage [0x30#8, 0x00#8, 0x12#8] (keys []) = none := by decide

/-! ## Witnesses: for every statement with hypotheses, a state and operands that meet them -/

/-- A running state with a key latched and short strings at 0x4000, in which every instruction completes. -/
def base : State :=
  latched (mk 0x3001#16 (r2 0 0x4000#16 6 0x5000#16)
    [(0x4000#16, 0x0041#16), (0x5000#16, 0x1234#16), (0x3001#16, 0x5000#16)]) 0x61#8

/-- Instructions that write registers or memory. -/
def dataInstr : List Instr :=
  [.addReg 1 0 6, .addImm 1 0 0b11111#5, .andReg 1 0 6, .andImm 1 0 0b00001#5, .not 1 6, .ld 1 0#9, .ldi 1 0#9,
   .ldr 1 6 0#6, .lea 1 0x1FF#9, .st 0 0x010#9, .sti 0 0#9, .str 0 6 0b111111#6]

/-- Control transfers, and the two opcodes that fault. -/
def controlInstr : List Instr :=
  [.br true false true 0x010#9, .br false true false 0x010#9, .nop 0#9, .jmp 6, .ret, .jsr 0b10000000000#11, .jsrr 6,
   .jsrr 7, .rti, .res]

/-- The trap routines, by their own names and by vector, and TRAP with unknown vectors. -/
def trapInstr : List Instr :=
  [.getc, .out, .puts, .inp, .putsp, .halt, .trap 0x00#8, .trap 0x20#8, .trap 0x21#8, .trap 0x22#8, .trap 0x23#8,
   .trap 0x24#8, .trap 0x25#8, .trap 0xFF#8]

/-- PcAfterEveryInstruction, FlagsFollowNineOperations, RegistersKeptBut, MemoryKeptButStoredCell,
RunConditionTransitions, OutputOnlyGrowsByTraps, InputConsumedFromFront: the premise `exec i s = .next t` is met for
every constructor. -/
theorem witness_every_instruction_completes :
    dataInstr.all (fun i => after (exec i base) fun _ => true) = true ∧
    controlInstr.all (fun i => after (exec i base) fun _ => true) = true ∧
    trapInstr.all (fun i => after (exec i base) fun _ => true) = true := by
  refine ⟨by decide +kernel, by decide +kernel, by decide +kernel⟩

/-- The other premises of those statements: a register that is no destination, a cell that is not the one stored to
(the cell before and the cell after it), an instruction that emits nothing. -/
theorem witness_frame_premises :
    (0 : Reg) ∉ destRegs (.addReg 1 0 6) ∧ (1 : Reg) ∉ destRegs .getc ∧ (6 : Reg) ∉ destRegs (.jsrr 6) ∧
    storeAddr (.st 0 0x010#9) base = some 0x3011#16 ∧ storeAddr (.str 0 6 0b111111#6) base = some 0x4FFF#16 ∧
    storeAddr (.sti 0 0#9) base = some 0x5000#16 ∧ storeAddr .puts base = none := by decide

/-- LatchMovesOnlyInKeyboardReads, its three clauses. -/
theorem witness_LatchMovesOnlyInKeyboardReads :
    (let s : State := { mk 0x3001#16 r0 [] with kbd := keys [.ready 0x61#8] };
      s.kbdReady = false ∧ (s.memRead 0xFE00#16).2.kbdReady = true) ∧
    (base.kbdReady = true ∧ (base.memRead 0xFE02#16).2.kbdReady = false) ∧
    (after (exec (.str 0 6 0#6) base) (fun _ => true) = true ∧ readsData (.str 0 6 0#6) = false) := by decide

/-- DecodeUndoesEncode: a well-formed instruction of every constructor. -/
theorem witness_DecodeUndoesEncode :
    (dataInstr.all WellFormed) = true ∧ (controlInstr.all WellFormed) = true ∧
    ([.trap 0x00#8, .getc, .out, .puts, .inp, .putsp, .halt].all WellFormed) = true ∧ WellFormed (.br true false true 0x1FF#9) = true ∧
    WellFormed (.jmp 6) = true ∧ WellFormed (.trap 0xFF#8) = true := by decide

/-- IgnoredBitsChangeNothing: a word for each clause, all its ignored bits set in `x`. -/
theorem witness_IgnoredBitsChangeNothing :
    (0x1042#16).extractLsb' 12 4 = 0x1#4 ∧ (0x1042#16).getLsbD 5 = false ∧ decode (0x1042#16 ^^^ 0x0018#16) = .addReg 0 1 2 ∧
    (0x5042#16).extractLsb' 12 4 = 0x5#4 ∧ (0x5042#16).getLsbD 5 = false ∧ decode (0x5042#16 ^^^ 0x0018#16) = .andReg 0 1 2 ∧
    (0x9040#16).extractLsb' 12 4 = 0x9#4 ∧ decode (0x9040#16 ^^^ 0x003F#16) = .not 0 1 ∧
    (0xC080#16).extractLsb' 12 4 = 0xC#4 ∧ decode (0xC080#16 ^^^ 0x0E3F#16) = .jmp 2 ∧
    (0x4080#16).extractLsb' 12 4 = 0x4#4 ∧ (0x4080#16).getLsbD 11 = false ∧ decode (0x4080#16 ^^^ 0x063F#16) = .jsrr 2 ∧
    (0xF021#16).extractLsb' 12 4 = 0xF#4 ∧ decode (0xF021#16 ^^^ 0x0F00#16) = .out ∧
    (0x8000#16).extractLsb' 12 4 = 0x8#4 ∧ decode (0x8000#16 ^^^ 0x0FFF#16) = .rti ∧
    (0xD000#16).extractLsb' 12 4 = 0xD#4 ∧ decode (0xD000#16 ^^^ 0x0FFF#16) = .res := by decide

/-- OpcodeSelectsInstruction and the decode clauses of the result statements (AddRegister to UnimplementedOpcodesFault):
a word for each opcode, with both values of bit 5 and of bit 11 where they select. -/
theorem witness_opcode_words :
    [0x0E00#16, 0x1000#16, 0x2000#16, 0x3000#16, 0x4000#16, 0x5000#16, 0x6000#16, 0x7000#16].map
      (fun w : Word => w.extractLsb' 12 4) = [0x0#4, 0x1#4, 0x2#4, 0x3#4, 0x4#4, 0x5#4, 0x6#4, 0x7#4] ∧
    [0x8000#16, 0x9000#16, 0xA000#16, 0xB000#16, 0xC000#16, 0xD000#16, 0xE000#16, 0xF000#16].map
      (fun w : Word => w.extractLsb' 12 4) = [0x8#4, 0x9#4, 0xA#4, 0xB#4, 0xC#4, 0xD#4, 0xE#4, 0xF#4] ∧
    (0x1020#16).getLsbD 5 = true ∧ (0x1000#16).getLsbD 5 = false ∧ (0x5020#16).getLsbD 5 = true ∧
    (0x4800#16).getLsbD 11 = true ∧ (0x4000#16).getLsbD 11 = false := by decide

/-- UnknownTrapOnlyLinks: the vectors at the ends of both ranges; the vectors next to them are outside. -/
theorem witness_UnknownTrapOnlyLinks :
    ([0x00#8, 0x1F#8, 0x26#8, 0xFF#8].all fun v : BitVec 8 => decide (v.toNat < 0x20 ∨ 0x25 < v.toNat)) = true ∧
    ([0x20#8, 0x25#8].any fun v : BitVec 8 => decide (v.toNat < 0x20 ∨ 0x25 < v.toNat)) = false := by decide

/-- A state with two failed polls to come, then `rest`. -/
def waiting (more : List PollAnswer) (rest : KbdRest) : State :=
  { mk 0x3001#16 r0 [] with kbd := { now := [.notReady, .notReady] ++ more, rest := rest } }

/-- GetcTakesNextKey and InPromptsTakesEchoes: the premises of both clauses, for a latched byte, a listed byte 0 after
two failed polls, and the first byte of a steady stream after two failed polls. -/
theorem witness_key_waits :
    (base.kbdReady = true ∧ base.kbdByte = 0x61#8) ∧
    ((waiting [.ready 0x00#8, .notReady] .silent).kbdReady = false ∧
      (∀ j, j < 2 → (waiting [.ready 0x00#8, .notReady] .silent).kbd.answer j = none) ∧
      (waiting [.ready 0x00#8, .notReady] .silent).kbd.answer 2 = some 0x00#8) ∧
    ((waiting [] (.steady 0 7)).kbdReady = false ∧
      (∀ j, j < 2 → (waiting [] (.steady 0 7)).kbd.answer j = none) ∧
      (waiting [] (.steady 0 7)).kbd.answer 2 = some (Config.steadyByte 0 7)) := by
  refine ⟨by decide, ⟨rfl, by decide, by decide⟩, rfl, ?_, rfl⟩
  intro j hj
  match j, hj with
  | 0, _ => rfl
  | 1, _ => rfl

/-- The same premises, after two failed polls, in a fitful stream. -/
theorem witness_key_wait_fitful :
    ∃ k b, (waiting [] (.fitful 0 0)).kbd.answer (2 + k) = some b := by
  obtain ⟨l, b, more, h⟩ := Laws.fitful_delivers 0 0
  refine ⟨l.length, b, ?_⟩
  exact (Laws.answer_fitful_append (waiting [] (.fitful 0 0)).kbd h rfl).2

/-- KeyWaitWithoutKeysHangs, PutsEndsWithoutKeys: the premises, with two failed polls listed. -/
theorem witness_never_a_key :
    (waiting [] .silent).kbdReady = false ∧ ∀ j, (waiting [] .silent).kbd.answer j = none := by
  refine ⟨rfl, fun j => ?_⟩
  match j with
  | 0 => rfl
  | 1 => rfl
  | j + 2 =>
    show (Kbd.drop j { now := [], rest := .silent }).poll.1 = none
    rw [Laws.drop_silent]
    rfl

/-- A state with a string of one cell at 0x4000, then a zero cell. -/
def strings (s : Word) (c : Word) : State := mk 0x3001#16 (r1 0 s) [(0x4000#16, c)]

/-- PutsEmitsString: its premises for one cell, and for the empty string next to a keyboard address. -/
theorem witness_PutsEmitsString :
    (∀ k, k ≤ 1 → plain ((strings 0x4000#16 0x0041#16).reg 0 + BitVec.ofNat 16 k) = true) ∧
    (∀ k, k < 1 → (strings 0x4000#16 0x0041#16).mem.read
      ((strings 0x4000#16 0x0041#16).reg 0 + BitVec.ofNat 16 k) ≠ 0x0000#16) ∧
    (strings 0x4000#16 0x0041#16).mem.read ((strings 0x4000#16 0x0041#16).reg 0 + BitVec.ofNat 16 1) = 0x0000#16 ∧
    (∀ k, k ≤ 0 → plain ((strings 0xFE01#16 0x0041#16).reg 0 + BitVec.ofNat 16 k) = true) ∧
    (strings 0xFE01#16 0x0041#16).mem.read ((strings 0xFE01#16 0x0041#16).reg 0 + BitVec.ofNat 16 0) = 0x0000#16 := by
  decide

/-- PutspEmitsString: its premises for one full cell before a zero one, and for a cell whose high byte ends the
string. -/
theorem witness_PutspEmitsString :
    (∀ k, k ≤ 1 → plain ((strings 0x4000#16 0x4241#16).reg 0 + BitVec.ofNat 16 k) = true) ∧
    (∀ k, k < 1 →
      ((strings 0x4000#16 0x4241#16).mem.read
        ((strings 0x4000#16 0x4241#16).reg 0 + BitVec.ofNat 16 k)).extractLsb' 0 8 ≠ 0x00#8 ∧
      ((strings 0x4000#16 0x4241#16).mem.read
        ((strings 0x4000#16 0x4241#16).reg 0 + BitVec.ofNat 16 k)).extractLsb' 8 8 ≠ 0x00#8) ∧
    ((strings 0x4000#16 0x4241#16).mem.read
      ((strings 0x4000#16 0x4241#16).reg 0 + BitVec.ofNat 16 1)).extractLsb' 0 8 = 0x00#8 ∧
    ((strings 0x4000#16 0x0041#16).mem.read
      ((strings 0x4000#16 0x0041#16).reg 0 + BitVec.ofNat 16 0)).extractLsb' 8 8 = 0x00#8 := by decide

/-- PutsEmitsString and PutspEmitsString, the clauses about bus reads: their premises where the string is a plain cell
and then the two keyboard registers with the cell between them, and where it is empty. -/
theorem witness_strings_through_keyboard :
    (let s := latched (mk 0x3001#16 (r1 0 0xFDFF#16) [(0xFDFF#16, 0x4241#16), (0xFE01#16, 0x4443#16)]) 0x00#8
     (s.readRun 4 (s.reg 0)).1 = [0x4241#16, 0x8000#16, 0x4443#16] ++ [0x0000#16]) ∧
    (let s := mk 0x3001#16 (r1 0 0xFE00#16) [];
     (s.readRun 1 (s.reg 0)).1 = [] ++ [0x0000#16]) ∧
    (let s := latched (mk 0x3001#16 (r1 0 0xFDFF#16) [(0xFDFF#16, 0x4241#16)]) 0x00#8;
     (s.readRun 2 (s.reg 0)).1 = [0x4241#16] ++ [0x8000#16]) := by decide

/-- A memory of `n` cells from address `lo` on that all hold 1. -/
def ones (lo n : Nat) : Memory :=
  match n with
  | 0 => []
  | n + 1 => (lo, 0x0001#16) :: ones (lo + 1) n

theorem lookup_ones (n lo a : Nat) (h : lo ≤ a) (h' : a < lo + n) : lookup (ones lo n) a = 0x0001#16 := by
  induction n generalizing lo with
  | zero => omega
  | succ n ih =>
    by_cases he : a = lo
    · simp [ones, lookup, he]
    · simp only [ones, lookup, if_neg he]
      exact ih (lo + 1) (by omega) (by omega)

/-- Every cell holds 1. -/
@[irreducible] def fullMem : Memory := ones 0 65536

theorem lookup_fullMem (a : Word) : lookup fullMem a.toNat = 0x0001#16 := by
  unfold fullMem
  exact lookup_ones 65536 0 a.toNat (Nat.zero_le _) (by have := a.isLt; omega)

/-- No cell is zero, a byte is latched, and the terminal has non-zero keys ready for ever. -/
def endless : State :=
  { latched (mk 0x3001#16 r0 []) 0x01#8 with mem := fullMem, kbd := { now := [], rest := .steady 0 0 } }

/-- PutsWithoutTerminatorHangs: its premises. -/
theorem witness_PutsWithoutTerminatorHangs :
    (∀ a, plain a = true → endless.mem.read a ≠ 0x0000#16) ∧ endless.kbdReady = true ∧ endless.kbdByte ≠ 0x00#8 ∧
    ∀ j, ∃ b, endless.kbd.answer j = some b ∧ b ≠ 0x00#8 := by
  refine ⟨?_, rfl, by decide, fun j => ⟨Config.steadyByte 0 (0 + j), ?_, Laws.steadyByte_ne_zero _ _⟩⟩
  · intro a _
    show lookup fullMem a.toNat ≠ 0x0000#16
    rw [lookup_fullMem]
    decide
  · show (Kbd.drop j { now := [], rest := .steady 0 0 }).poll.1 = _
    rw [Laws.drop_steady, Laws.poll_steady]

theorem exec_puts_endless (s : State) (h : scanPuts s.link.scanFuel (s.link.reg 0) s.link = none) :
    exec .puts s = .fault .endlessString := by
  show trapPuts s.link = _
  simp only [trapPuts, h]

/-- EndlessStringNeverEnds: its premise is met. -/
theorem witness_EndlessStringNeverEnds : exec .puts endless = .fault .endlessString := by
  obtain ⟨hm, hr, hb, hk⟩ := witness_PutsWithoutTerminatorHangs
  exact exec_puts_endless endless (Laws.scanPuts_endless _ ⟨hm, hk, .inl ⟨hr, hb⟩⟩)

/-- A state with the given keyboard stream, nothing latched, at `pc`. -/
def typing (pc : Word) (k : Kbd) : State := { mk pc r0 [] with kbd := k }

/-- StatusReadPollsAndLatches, DataReadClearsLatch: the premises of every clause. -/
theorem witness_keyboard_reads :
    base.kbdReady = true ∧ (typing 0x3001#16 (keys [])).kbdReady = false ∧
    (typing 0x3001#16 (keys [.notReady])).kbd.now = .notReady :: [] ∧
    (typing 0x3001#16 (keys [.ready 0x61#8])).kbd.now = .ready 0x61#8 :: [] ∧
    (typing 0x3001#16 (keys [])).kbd = { now := [], rest := .silent } ∧
    (typing 0x3001#16 { now := [], rest := .steady 0 0 }).kbd = { now := [], rest := .steady 0 0 } ∧
    (typing 0x3001#16 { now := [], rest := .fitful 0 0 }).kbd = { now := [], rest := .fitful 0 0 } := by decide

/-- FetchFromKeyboardRegisters: the premises of its nine clauses, in their order. -/
theorem witness_FetchFromKeyboardRegisters :
    (let s := latched (mk 0xFE00#16 r0 []) 0x61#8;
      s.run = .running ∧ s.pc = 0xFE00#16 ∧ s.kbdReady = true) ∧
    (let s := typing 0xFE00#16 (keys [.notReady, .ready 0x61#8]);
      s.run = .running ∧ s.pc = 0xFE00#16 ∧ s.kbdReady = false ∧ s.kbd.answer 0 = none) ∧
    (let s := typing 0xFE00#16 { now := [], rest := .steady 0 0 };
      s.run = .running ∧ s.pc = 0xFE00#16 ∧ s.kbdReady = false ∧ s.kbd.answer 0 = some (Config.steadyByte 0 0)) ∧
    (let s := typing 0xFE00#16 (keys []);
      s.run = .running ∧ s.pc = 0xFE00#16 ∧ s.kbdReady = false ∧ s.kbd = { now := [], rest := .silent }) ∧
    (let s := typing 0xFE00#16 (keys [.notReady, .ready 0x61#8]);
      s.run = .running ∧ s.pc = 0xFE00#16 ∧ s.kbdReady = false ∧ s.kbd.now = .notReady :: [.ready 0x61#8]) ∧
    (let s := typing 0xFE00#16 (keys [.ready 0x61#8]);
      s.run = .running ∧ s.pc = 0xFE00#16 ∧ s.kbdReady = false ∧ s.kbd.now = .ready 0x61#8 :: []) ∧
    (let s := { State.reset with pc := 0xFE00#16 };
      s.run = .running ∧ s.pc = 0xFE00#16 ∧ s.kbdReady = false ∧ s.kbd = { now := [], rest := .steady 0 0 }) ∧
    (let s := latched (mk 0xFE02#16 r0 []) 0xFF#8;
      s.run = .running ∧ s.pc = 0xFE02#16 ∧ s.kbdReady = true) ∧
    (let s := mk 0xFE02#16 r0 [];
      s.run = .running ∧ s.pc = 0xFE02#16 ∧ s.kbdReady = false) := by
  refine ⟨by decide, by decide, ⟨rfl, rfl, rfl, rfl⟩, by decide, by decide, by decide, by decide, by decide,
    by decide⟩

/-- StoreSeenByNextFetch: its premises, at the top of memory. -/
theorem witness_StoreSeenByNextFetch :
    let s := mk 0xFFFF#16 (r1 3 0xAAAA#16) [(0xFFFF#16, 0x3600#16)]
    s.run = .running ∧ plain s.pc = true ∧ plain (s.pc + 1#16) = true ∧ decode (s.mem.read s.pc) = .st 3 0#9 := by decide

/-- StepRunsDecodedInstruction: the premises of its clauses, with a `pc` that is plain and one that is not. -/
theorem witness_StepRunsDecodedInstruction :
    (State.reset.run = .running ∧ plain State.reset.pc = true) ∧
    ((mk 0xFE00#16 r0 []).run = .running ∧ plain (mk 0xFE00#16 r0 []).pc = false) ∧
    { State.reset with run := .halted }.run = .halted ∧ { State.reset with run := .faulted }.run = .faulted := by decide

/-- OnlyKeyWaitsAndScansNeverEnd: each of its three outcomes occurs. -/
theorem witness_OnlyKeyWaitsAndScansNeverEnd :
    after (exec .getc base) (fun _ => true) = true ∧
    faultIs (exec .getc (waiting [] .silent)) (fun f => f ==
      .keyWait { waiting [] .silent with regs := r1 7 0x3001#16, kbd := keys [] }) = true ∧
    exec .puts endless = .fault .endlessString :=
  ⟨by decide, by decide, witness_EndlessStringNeverEnds⟩

/-- HiddenStateIsUnobservable: two different states that no program tells apart, in a step that completes. -/
theorem witness_HiddenStateIsUnobservable :
    let s := mk 0x3000#16 r0 [(0x3000#16, 0x1021#16)]
    let s' : State := { mk 0x3000#16 r0 [(0x3000#16, 0x1021#16), (0xFE00#16, 0x1234#16)] with kbdByte := 0x55#8 }
    s ≠ s' ∧ s.SameSeen s' ∧ after (step s) (fun _ => true) = true := by
  refine ⟨by decide, ⟨rfl, rfl, rfl, rfl, rfl, rfl, by decide, rfl, rfl, ?_⟩, by decide⟩
  intro a ha
  simp only [plain, Bool.and_eq_true, bne_iff_ne, ne_eq] at ha
  have h : ¬a = 0xFE00#16 := ha.1
  simp [mk, cells, Laws.read_write, h]

/-- StepKeepsInvariant: a state with the invariant whose step completes. -/
theorem witness_StepKeepsInvariant :
    (mk 0x3000#16 r0 [(0x3000#16, 0x3600#16)]).Inv = true ∧
    after (step (mk 0x3000#16 r0 [(0x3000#16, 0x3600#16)])) (fun _ => true) = true := by decide

/-- ResetHasInvariant, CanonicalMemoryIsItsReads: a canonical memory with cells at both ends, reached in two orders;
and a list that is not canonical. -/
theorem witness_canonical_memory :
    (cells [(0x0000#16, 0x0001#16), (0xFFFF#16, 0x8000#16)]).wf = true ∧
    cells [(0x0000#16, 0x0001#16), (0xFFFF#16, 0x8000#16)] = cells [(0xFFFF#16, 0x8000#16), (0x0000#16, 0x0001#16)] ∧
    Memory.wf [(0, 0x0000#16)] = false ∧ Memory.wf [(2, 0x0001#16), (1, 0x0001#16)] = false := by decide

/-- BootLoadsImage: an image that boots, and the shortest one. -/
theorem witness_BootLoadsImage :
    (bootImage [0x30#8, 0x00#8, 0xF0#8, 0x25#8] (keys [])).isSome = true ∧ (bootImage [0x30#8, 0x00#8] (keys [])).isSome = true := by decide

end Sys2Proof.Tests
end

section
/-!
SUPPORT. Facts about the state (10_state.md): what the shared operations keep, when `run` and the fault record move,
that every instruction keeps the invariant, what reads say of a canonical memory, and the ranges of the flag rule.
All that concerns `exec` is read off `Laws.exec_shape`.
-/

namespace Sys2Proof.Laws

open Sys2Proof.Machine

/-! What the keyboard side and the output leave alone -/

theorem KbdOut.cond {s t : State} (h : KbdOut s t) : t.cond = s.cond := by
  obtain ⟨_, _, _, _, rfl⟩ := h
  rfl

theorem KbdOut.run {s t : State} (h : KbdOut s t) : t.run = s.run := by
  obtain ⟨_, _, _, _, rfl⟩ := h
  rfl

theorem KbdOut.faultOpcode {s t : State} (h : KbdOut s t) : t.faultOpcode = s.faultOpcode := by
  obtain ⟨_, _, _, _, rfl⟩ := h
  rfl

theorem KbdOut.mem {s t : State} (h : KbdOut s t) : t.mem = s.mem := by
  obtain ⟨_, _, _, _, rfl⟩ := h
  rfl

/-! The run condition -/

/-- The instructions that write `run`: RTI, the reserved opcode, and HALT by either of its names (10_state.md R18). -/
def Stops (i : Instr) : Prop := i = .rti ∨ i = .res ∨ i = .halt ∨ i = .trap 0x25#8

theorem not_stops_of_quiet {i : Instr} (h : quiet i) : ¬ Stops i := by
  obtain ⟨hrti, hres, hhalt, htrap⟩ := h
  simp [Stops, hrti, hres, hhalt, htrap]

/-- Only the instructions that stop the machine write `run` or the fault record. -/
theorem exec_keeps_run {i : Instr} {s t : State} (h : exec i s = .next t) (hi : ¬ Stops i) :
    t.run = s.run ∧ t.faultOpcode = s.faultOpcode := by
  cases exec_shape h with
  | produce u _ _ hu _ _ _ _ _ _ e => simp [e, hu.out.run, hu.out.faultOpcode]
  | store u _ _ hu _ _ _ _ _ _ e => simp [e, hu.out.run, hu.out.faultOpcode]
  | jump _ _ _ _ _ e => simp [e]
  | call _ _ _ _ _ e => simp [e]
  | key u _ hu _ _ _ _ _ _ _ e => simp [e, hu.run, hu.faultOpcode]
  | emits ht => simp [ht.run, ht.faultOpcode]
  | halts _ _ _ hstop => exact absurd (.inr (.inr hstop)) hi
  | raises _ _ _ _ hstop => exact absurd (hstop.elim (fun h => .inl h.1) fun h => .inr (.inl h.1)) hi

/-! The invariant, part by part -/

theorem inv_iff (s : State) :
    s.Inv = true ↔ s.mem.wf = true ∧ s.latchWf = true ∧ s.faultWf = true := by
  simp [State.Inv, and_assoc]

theorem faultWf_iff (s : State) :
    s.faultWf = true ↔ (s.run = .faulted → s.faultOpcode = 0x8#4 ∨ s.faultOpcode = 0xD#4) := by
  simp [State.faultWf, or_assoc, imp_iff_not_or]

/-- The latch rule looks at nothing but the latch. -/
theorem latchWf_congr {s t : State} (hr : t.kbdReady = s.kbdReady) (hb : t.kbdByte = s.kbdByte) :
    t.latchWf = s.latchWf := by
  simp [State.latchWf, hr, hb]

/-- The rule of the fault record looks at nothing but `run` and the record. -/
theorem faultWf_congr {s t : State} (hr : t.run = s.run) (ho : t.faultOpcode = s.faultOpcode) :
    t.faultWf = s.faultWf := by
  simp [State.faultWf, hr, ho]

/-- Every instruction keeps memory canonical: it writes at most one cell. -/
theorem exec_memWf {i : Instr} {s t : State} (h : exec i s = .next t) (hs : s.mem.wf = true) : t.mem.wf = true := by
  cases exec_shape h with
  | produce u _ _ hu _ _ _ _ _ _ e => simp [e, hu.out.mem, hs]
  | store u a v hu _ _ _ _ _ _ e => simp [e, hu.out.mem, wf_write _ _ _ hs]
  | jump _ _ _ _ _ e => simp [e, hs]
  | call _ _ _ _ _ e => simp [e, hs]
  | key u _ hu _ _ _ _ _ _ _ e => simp [e, hu.mem, hs]
  | emits ht => simp [ht.mem, hs]
  | halts _ _ _ _ e => simp [e, hs]
  | raises _ _ _ _ _ e => simp [e, hs]

/-- Every instruction leaves an empty latch clean (20_memory.md R34). -/
theorem exec_latchWf {i : Instr} {s t : State} (h : exec i s = .next t) (hs : s.latchWf = true) :
    t.latchWf = true := by
  cases exec_shape h with
  | produce u _ _ _ hl _ _ _ _ _ e => exact (latchWf_congr (by simp [e]) (by simp [e])).trans (hl hs)
  | store u _ _ _ hl _ _ _ _ _ e => exact (latchWf_congr (by simp [e]) (by simp [e])).trans (hl hs)
  | jump _ _ _ _ _ e => exact (latchWf_congr (by simp [e]) (by simp [e])).trans hs
  | call _ _ _ _ _ e => exact (latchWf_congr (by simp [e]) (by simp [e])).trans hs
  | key u _ _ hl _ _ _ _ _ _ e => exact (latchWf_congr (by simp [e]) (by simp [e])).trans (hl hs)
  | emits _ hl => exact hl hs
  | halts _ _ _ _ e => exact (latchWf_congr (by simp [e]) (by simp [e])).trans hs
  | raises _ _ _ _ _ e => exact (latchWf_congr (by simp [e]) (by simp [e])).trans hs

/-- The three instructions that stop the machine give the fault record its meaning, and no other touches it. -/
theorem exec_faultWf {i : Instr} {s t : State} (h : exec i s = .next t) (hs : s.faultWf = true) :
    t.faultWf = true := by
  by_cases hi : Stops i
  · rw [faultWf_iff]
    rcases hi with rfl | rfl | rfl | rfl <;> obtain rfl := next_inj h
    · exact fun _ => .inl rfl
    · exact fun _ => .inr rfl
    · exact nofun
    · exact nofun
  · obtain ⟨hrun, hop⟩ := exec_keeps_run h hi
    rw [faultWf_congr hrun hop, hs]

theorem exec_inv {i : Instr} {s t : State} (h : exec i s = .next t) (hs : s.Inv = true) : t.Inv = true := by
  obtain ⟨hmem, hlatch, hfault⟩ := (inv_iff s).1 hs
  exact (inv_iff t).2 ⟨exec_memWf h hmem, exec_latchWf h hlatch, exec_faultWf h hfault⟩

theorem fetch_inv {s : State} (hs : s.Inv = true) : s.fetch.2.Inv = true := by
  obtain ⟨hmem, hlatch, hfault⟩ := (inv_iff s).1 hs
  rw [fetch_eq, inv_iff]
  refine ⟨by simpa using hmem, ?_, ?_⟩
  · exact (latchWf_congr rfl rfl).trans (memRead_latchWf s s.pc hlatch)
  · exact (faultWf_congr (by simp) (by simp)).trans hfault

/-! The step -/

theorem step_running {s : State} (h : s.run = .running) : step s = exec (decode s.fetch.1) s.fetch.2 := by
  simp [step, h]

/-- A step that completes was taken while running (10_state.md R18). -/
theorem run_of_step_next {s t : State} (h : step s = .next t) : s.run = .running := by
  cases hr : s.run with
  | running => rfl
  | halted => simp [step, hr] at h
  | faulted => simp [step, hr] at h

/-! The reads of a canonical memory -/

theorem wellOrdered_cons {lo k : Nat} {u : Word} {rest : Memory} :
    wellOrdered lo ((k, u) :: rest) = true ↔
      lo ≤ k ∧ k < 65536 ∧ u ≠ Config.blank ∧ wellOrdered (k + 1) rest = true := by
  simp [wellOrdered, and_assoc]

/-- Below its first address a memory in canonical form is blank. -/
theorem lookup_below {lo a : Nat} {m : Memory} (hm : wellOrdered lo m = true) (ha : a < lo) :
    lookup m a = Config.blank := by
  induction m generalizing lo with
  | nil => rfl
  | cons c rest ih =>
    obtain ⟨k, u⟩ := c
    obtain ⟨hlo, _, _, hrest⟩ := wellOrdered_cons.1 hm
    have hne : a ≠ k := by omega
    rw [lookup, if_neg hne]
    exact ih hrest (by omega)

/-- The first listed cell shows in a read, so a memory that reads like it there does not start above it. -/
theorem le_head_of_lookup_eq {lo lo' k : Nat} {u : Word} {rest m : Memory}
    (hc : wellOrdered lo ((k, u) :: rest) = true) (hm : wellOrdered lo' m = true)
    (h : lookup ((k, u) :: rest) k = lookup m k) : lo' ≤ k := by
  obtain ⟨_, _, hu, _⟩ := wellOrdered_cons.1 hc
  by_contra hlt
  rw [lookup_below hm (by omega), lookup, if_pos rfl] at h
  exact hu h

/-- A memory that lists a cell does not read like the empty one. -/
theorem cons_lookup_ne_nil {lo k : Nat} {u : Word} {rest : Memory} (hc : wellOrdered lo ((k, u) :: rest) = true) :
    lookup ((k, u) :: rest) k ≠ lookup [] k := fun h =>
  Nat.not_succ_le_self k (le_head_of_lookup_eq (lo' := k + 1) hc rfl h)

/-- The first address of a canonical memory may stand for its lower bound. -/
theorem wellOrdered_at_head {lo k : Nat} {u : Word} {rest : Memory} (hc : wellOrdered lo ((k, u) :: rest) = true) :
    wellOrdered k ((k, u) :: rest) = true :=
  wellOrdered_cons.2 ⟨Nat.le_refl k, (wellOrdered_cons.1 hc).2⟩

theorem eq_of_lookup_eq {lo lo' : Nat} {m m' : Memory} (hm : wellOrdered lo m = true)
    (hm' : wellOrdered lo' m' = true) (h : ∀ a, a < 65536 → lookup m a = lookup m' a) : m = m' := by
  induction m generalizing lo lo' m' with
  | nil =>
    cases m' with
    | nil => rfl
    | cons c' rest' =>
      obtain ⟨_, hk', _, _⟩ := wellOrdered_cons.1 hm'
      exact absurd (h _ hk').symm (cons_lookup_ne_nil hm')
  | cons c rest ih =>
    obtain ⟨k, u⟩ := c
    obtain ⟨_, hk, _, hrest⟩ := wellOrdered_cons.1 hm
    cases m' with
    | nil => exact absurd (h k hk) (cons_lookup_ne_nil hm)
    | cons c' rest' =>
      obtain ⟨k', u'⟩ := c'
      obtain ⟨_, hk', _, hrest'⟩ := wellOrdered_cons.1 hm'
      have hge : k' ≤ k := le_head_of_lookup_eq hm (wellOrdered_at_head hm') (h k hk)
      have hle : k ≤ k' := le_head_of_lookup_eq hm' (wellOrdered_at_head hm) (h k' hk').symm
      obtain rfl := Nat.le_antisymm hle hge
      have hhead : u = u' := by simpa [lookup] using h k hk
      have htail : rest = rest' := by
        refine ih hrest hrest' fun a ha => ?_
        by_cases hak : a = k
        · rw [lookup_below hrest (by omega), lookup_below hrest' (by omega)]
        · simpa [lookup, hak] using h a ha
      rw [hhead, htail]

theorem read_ofNat (m : Memory) {a : Nat} (ha : a < 65536) : m.read (BitVec.ofNat 16 a) = lookup m a := by
  rw [Memory.read, BitVec.toNat_ofNat, Nat.mod_eq_of_lt ha]

/-! The flag rule by ranges (10_state.md R17) -/

theorem bit15_iff (v : Word) : v.getLsbD 15 = true ↔ 0x8000 ≤ v.toNat := by
  have h : v.getLsbD 15 = decide (0x8000 ≤ v.toNat) :=
    (BitVec.msb_eq_getLsbD_last v).symm.trans (BitVec.msb_eq_decide v)
  rw [h, decide_eq_true_iff]

/-- The three ranges of the rule, of which every value is in exactly one. -/
theorem flagOf_cases (v : Word) :
    (v.toNat = 0 ∧ flagOf v = .zero) ∨
    (0x0001 ≤ v.toNat ∧ v.toNat ≤ 0x7FFF ∧ flagOf v = .positive) ∨
    (0x8000 ≤ v.toNat ∧ flagOf v = .negative) := by
  by_cases hz : v = 0x0000#16
  · exact .inl ⟨by rw [hz]; rfl, by rw [flagOf, if_pos hz]⟩
  have hpos : v.toNat ≠ 0 := fun h => hz (BitVec.eq_of_toNat_eq h)
  by_cases hn : v.getLsbD 15 = true
  · exact .inr (.inr ⟨(bit15_iff v).1 hn, by rw [flagOf, if_neg hz, if_pos hn]⟩)
  · have hlt : v.toNat < 0x8000 := Nat.lt_of_not_le fun h => hn ((bit15_iff v).2 h)
    exact .inr (.inl ⟨by omega, by omega, by rw [flagOf, if_neg hz, if_neg hn]⟩)

end Sys2Proof.Laws
end

section
/-!
SETTLED. The statements of the state family (10_state.md).
-/

namespace Sys2Proof.Proofs

open Sys2Proof Sys2Proof.Machine Sys2Proof.Laws

/-- Settles O57: the fetch keeps the invariant, and so does every instruction, part by part. -/
theorem stepKeepsInvariant : Obligations.StepKeepsInvariant := by
  intro s t hs h
  rw [step_running (run_of_step_next h)] at h
  exact exec_inv h (fetch_inv hs)

/-- Settles O45, by the cases of a bus read and the shapes of a next state. -/
theorem latchMovesOnlyInKeyboardReads : Obligations.LatchMovesOnlyInKeyboardReads := by
  refine ⟨fun s a h h' => ?_, fun s a h h' => ?_, fun i s t h hr => ?_⟩
  · rcases memRead_cases s a with ⟨_, e⟩ | ⟨ha, _⟩ | ⟨ha, _⟩ | ⟨_, ha, _⟩ | ⟨_, hl, _⟩ | ⟨_, _, e⟩
    · simp [e, h] at h'
    · exact ha
    · exact ha
    · exact ha
    · simp [h] at hl
    · simp [e, h] at h'
  · rcases memRead_cases s a with ⟨_, e⟩ | ⟨_, _, e⟩ | ⟨_, hl, _⟩ | ⟨_, _, hl, _⟩ | ⟨ha, _⟩ | ⟨ha, _⟩
    · simp [e, h] at h'
    · simp [e, h] at h'
    · simp [h] at hl
    · simp [h] at hl
    · exact ha
    · exact ha
  · cases exec_shape h with
    | produce u _ _ _ _ _ _ _ hu _ e => simp [e, hu hr]
    | store u _ _ _ _ _ _ _ hu _ e => simp [e, hu hr]
    | jump _ _ _ _ _ e => simp [e]
    | call _ _ _ _ _ e => simp [e]
    | key _ _ _ _ _ _ _ _ hr' => simp [hr'] at hr
    | emits _ _ _ _ _ hkept => exact hkept hr
    | halts _ _ _ _ e => simp [e]
    | raises _ _ _ _ _ e => simp [e]

/-- Settles O49: a flag register goes with `produce`, which sets the flag of the value it writes. -/
theorem flagsFollowNineOperations : Obligations.FlagsFollowNineOperations := by
  intro i s t h
  cases exec_shape h with
  | produce u _ _ _ _ hf _ _ _ _ e => simp [hf, e, reg_produce]
  | store u _ _ hu _ hf _ _ _ _ e => simp [hf, e, hu.out.cond]
  | jump _ hf _ _ _ e => simp [hf, e]
  | call _ hf _ _ _ e => simp [hf, e]
  | key u _ _ _ _ hf _ _ _ _ e => simp [hf, e, reg_produce]
  | emits ht _ hf => simp [hf, ht.cond]
  | halts hf _ _ _ e => simp [hf, e]
  | raises _ hf _ _ _ e => simp [hf, e]

/-- Settles O52: each instruction that stops the machine computes, every other one keeps `run` and the record. -/
theorem runConditionTransitions : Obligations.RunConditionTransitions := by
  intro i s t h
  by_cases hi : Stops i
  · rcases hi with rfl | rfl | rfl | rfl <;> obtain rfl := next_inj h <;> exact ⟨rfl, rfl⟩
  · obtain ⟨hrun, hop⟩ := exec_keeps_run h hi
    simp only [Stops, not_or] at hi
    obtain ⟨hrti, hres, hhalt, htrap⟩ := hi
    simp [hrti, hres, hhalt, htrap, hrun, hop]

/-- Settles O59, by induction on both lists: their first cells must have the same address. -/
theorem canonicalMemoryIsItsReads : Obligations.CanonicalMemoryIsItsReads := by
  intro m m' hm hm' h
  refine eq_of_lookup_eq hm hm' fun a ha => ?_
  rw [← read_ofNat m ha, ← read_ofNat m' ha, h]

/-- Settles O7. -/
theorem resetValues : Obligations.ResetValues := by
  intro origin memInit kbd
  refine ⟨fun r => ?_, rfl, rfl, rfl, rfl, rfl, rfl, rfl, rfl⟩
  rw [reg_def, resetWith_regs, Fin.getElem_fin, Vector.getElem_replicate]

/-- Settles O8. -/
theorem registerFileStores : Obligations.RegisterFileStores :=
  fun s d r v => ⟨reg_setReg s d r v, rfl⟩

/-- Settles O9: the three ranges exclude each other, so the flag tells which one the value is in. -/
theorem flagRule : Obligations.FlagRule := by
  intro s v
  have hzero : v = 0x0000#16 ↔ v.toNat = 0 := BitVec.toNat_inj.symm
  refine ⟨rfl, ?_⟩
  rw [setcc_cond, hzero]
  rcases flagOf_cases v with ⟨hr, hf⟩ | ⟨hlo, hhi, hf⟩ | ⟨hr, hf⟩
  · simp [hf, hr]
  · simp [hf]
    omega
  · simp [hf]
    omega

/-- Settles O48: the fetch is one bus read at `pc` and the increment. -/
theorem stepRunsDecodedInstruction : Obligations.StepRunsDecodedInstruction := by
  intro s
  refine ⟨fun hr => ?_, fun hr hp => ?_, fun hr => ?_, fun hr => ?_⟩
  · rw [step_running hr, fetch_eq, State.setPc]
  · rw [step_running hr, fetch_plain s hp, State.setPc]
  · simp [step, hr]
  · simp [step, hr]

end Sys2Proof.Proofs
end

section
/-!
SUPPORT. Facts about the bus and the keyboard registers (20_memory.md): the two intercepted reads for each form of
stream, the step whose fetch is intercepted, and how far a next state's stream is consumed.
-/

namespace Sys2Proof.Laws

open Sys2Proof.Machine

/-! The intercepted reads by the answer of the poll (20_memory.md R33, R34) -/

theorem kbdr_empty (s : State) (h : s.kbdReady = false) : s.memRead Config.kbdr = (0x0000#16, s) := by
  simp [State.memRead, State.kbdrRead, h, Config.kbsr, Config.kbdr]

theorem poll_listed {k : Kbd} {a : PollAnswer} {more : List PollAnswer} (h : k.now = a :: more) :
    k.poll = (answerByte a, { k with now := more }) := by
  obtain ⟨now, rest⟩ := k
  obtain rfl : now = a :: more := h
  exact poll_cons a more rest

theorem kbsr_of_poll_fails {s : State} {k : Kbd} (h : s.kbdReady = false) (hp : s.kbd.poll = (none, k)) :
    s.memRead Config.kbsr = (0x0000#16, { s with kbd := k }) := by
  rw [kbsr_fails s h (by rw [answer_zero, hp]), drop_succ, hp, drop_zero]

theorem kbsr_of_poll_delivers {s : State} {b : Byte} {k : Kbd} (h : s.kbdReady = false)
    (hp : s.kbd.poll = (some b, k)) :
    s.memRead Config.kbsr = (0x8000#16, { s with kbd := k, kbdReady := true, kbdByte := b }) := by
  rw [kbsr_delivers s h (by rw [answer_zero, hp]), drop_succ, hp, drop_zero]

theorem kbsr_silent {s : State} (h : s.kbdReady = false) (hk : s.kbd = { now := [], rest := .silent }) :
    s.memRead Config.kbsr = (0x0000#16, s) := by
  have hp : s.kbd.poll = (none, s.kbd) := by rw [hk, poll_silent]
  exact kbsr_of_poll_fails h hp

theorem kbsr_steady {s : State} {id pos : Nat} (h : s.kbdReady = false)
    (hk : s.kbd = { now := [], rest := .steady id pos }) :
    s.memRead Config.kbsr = (0x8000#16, { s with
      kbd := { now := [], rest := .steady id (pos + 1) }, kbdReady := true, kbdByte := Config.steadyByte id pos }) :=
  kbsr_of_poll_delivers h (by rw [hk, poll_steady])

/-- A status read knows the stream by its next poll alone. -/
theorem kbsr_congr_poll {s : State} {k : Kbd} (h : s.kbdReady = false) (hp : s.kbd.poll = k.poll) :
    s.memRead Config.kbsr = State.memRead { s with kbd := k } Config.kbsr := by
  rcases hk : k.poll with ⟨_ | b, k'⟩
  · rw [kbsr_of_poll_fails h (hp.trans hk), kbsr_of_poll_fails (s := { s with kbd := k }) h hk]
  · rw [kbsr_of_poll_delivers h (hp.trans hk), kbsr_of_poll_delivers (s := { s with kbd := k }) h hk]

/-! The step whose fetch is intercepted (20_memory.md R49) -/

theorem decode_status_ready : decode 0x8000#16 = .rti := by decide

/-- A byte, zero-extended, is the word of a NOP: opcode 0 with no condition bit (30_encoding.md R59). -/
theorem decode_zeroExtended (b : Byte) : decode (b.setWidth 16) = .nop (Field.off9 (b.setWidth 16)) := by
  have hop : Field.op (b.setWidth 16) = 0x0#4 := by
    ext i hi
    simp [Field.op, BitVec.getLsbD_of_ge b (12 + i) (by omega)]
  have hn : (b.setWidth 16).getLsbD 11 = false := by simp
  have hz : (b.setWidth 16).getLsbD 10 = false := by simp
  have hp : (b.setWidth 16).getLsbD 9 = false := by simp
  rw [decode, hop, decodeOp, if_pos rfl, hn, hz, hp]
  rfl

theorem exec_nop (off : BitVec 9) (s : State) : exec (.nop off) s = .next s := by
  have h : s.taken false false false = false := by
    rw [State.taken]
    cases s.cond <;> rfl
  simp [exec, execNop, h]

theorem exec_st (sr : Reg) (off : BitVec 9) (s : State) :
    exec (.st sr off) s = .next (s.memWrite (s.pcRel9 off) (s.reg sr)) := rfl

/-- The step by what its fetch reads. -/
theorem step_of_read {s u : State} {w : Word} (hr : s.run = .running) (h : s.memRead s.pc = (w, u)) :
    step s = exec (decode w) (u.setPc (s.pc + 1#16)) := by
  rw [step_running hr, fetch_eq, h]

/-- The word of a status read that reports a byte is RTI. -/
theorem step_status_ready {s u : State} (hr : s.run = .running) (hpc : s.pc = 0xFE00#16)
    (h : s.memRead 0xFE00#16 = (0x8000#16, u)) :
    step s = .next { u with pc := 0xFE01#16, faultOpcode := 0x8#4, run := .faulted } := by
  rw [step_of_read hr (hpc ▸ h), decode_status_ready, hpc]
  rfl

/-- A keyboard read that gives a zero-extended byte is fetched as a no-op. -/
theorem step_byte {s u : State} {b : Byte} (hr : s.run = .running) (h : s.memRead s.pc = (b.setWidth 16, u)) :
    step s = .next (u.setPc (s.pc + 1#16)) := by
  rw [step_of_read hr h, decode_zeroExtended, exec_nop]

theorem step_status_empty {s u : State} (hr : s.run = .running) (hpc : s.pc = 0xFE00#16)
    (h : s.memRead 0xFE00#16 = (0x0000#16, u)) : step s = .next { u with pc := 0xFE01#16 } := by
  rw [step_byte (b := 0x00#8) hr (hpc ▸ h), hpc]
  rfl

theorem step_data {s u : State} {b : Byte} (hr : s.run = .running) (hpc : s.pc = 0xFE02#16)
    (h : s.memRead 0xFE02#16 = (b.setWidth 16, u)) : step s = .next { u with pc := 0xFE03#16 } := by
  rw [step_byte hr (hpc ▸ h), hpc]
  rfl

/-! The stream is consumed from its front (20_memory.md R48) -/

theorem KbdOut.kbd {s t : State} (h : KbdOut s t) : ∃ n, t.kbd = s.kbd.drop n := by
  obtain ⟨_, _, n, _, rfl⟩ := h
  exact ⟨n, rfl⟩

end Sys2Proof.Laws
end

section
/-!
SUPPORT. States that no instruction can tell apart (20_memory.md R36, 10_state.md R21): what each shared operation makes
of two such states, then each routine, each instruction and the step.
-/

namespace Sys2Proof.Laws

open Sys2Proof.Machine

/-- `SameSeen` as an update: other cells behind the bus, another byte in the latch. -/
theorem sameSeen_iff {s s' : State} :
    s.SameSeen s' ↔ ∃ m b, s' = { s with mem := m, kbdByte := b } ∧ (s.kbdReady = true → s.kbdByte = b) ∧
      ∀ a, plain a = true → s.mem.read a = m.read a := by
  constructor
  · rintro ⟨hregs, hpc, hcond, hrun, hop, hready, hbyte, hkbd, hout, hmem⟩
    exact ⟨s'.mem, s'.kbdByte, by rw [hregs, hpc, hcond, hrun, hop, hready, hkbd, hout], hbyte, hmem⟩
  · rintro ⟨m, b, rfl, hbyte, hmem⟩
    exact ⟨rfl, rfl, rfl, rfl, rfl, rfl, hbyte, rfl, rfl, hmem⟩

/-- A bus read at `a` sees neither the memory but at a plain `a` nor the byte of an empty latch. -/
theorem memRead_hidden (s : State) {a : Word} {m : Memory} {b : Byte} (hb : s.kbdReady = true → s.kbdByte = b)
    (hm : plain a = true → s.mem.read a = m.read a) :
    ∃ b', State.memRead { s with mem := m, kbdByte := b } a =
        ((s.memRead a).1, { (s.memRead a).2 with mem := m, kbdByte := b' }) ∧
      ((s.memRead a).2.kbdReady = true → (s.memRead a).2.kbdByte = b') := by
  rcases memRead_cases s a with ⟨hp, e⟩ | ⟨rfl, hr, e⟩ | ⟨rfl, hr, hp, e⟩ | ⟨c, rfl, hr, hp, e⟩ |
    ⟨rfl, hr, e⟩ | ⟨rfl, hr, e⟩ <;> rw [e]
  · exact ⟨b, by rw [memRead_plain _ hp, hm hp], hb⟩
  · exact ⟨b, kbsr_latched _ hr, hb⟩
  · exact ⟨b, kbsr_fails _ hr hp, hb⟩
  · exact ⟨c, kbsr_delivers _ hr hp, fun _ => rfl⟩
  · obtain rfl : s.kbdByte = b := hb hr
    exact ⟨0x00#8, kbdr_latched { s with mem := m } hr, fun _ => rfl⟩
  · exact ⟨b, kbdr_empty _ hr, hb⟩

/-- What a keyboard read gives does not depend on the memory (20_memory.md R36). -/
theorem memRead_keyboard_mem (s : State) {a : Word} (m : Memory) (ha : plain a = false) :
    (State.memRead { s with mem := m } a).1 = (s.memRead a).1 := by
  obtain ⟨_, e, _⟩ := memRead_hidden s (a := a) (m := m) (b := s.kbdByte) (fun _ => rfl) (by simp [ha])
  rw [e]

theorem sameSeen_memRead {s s' : State} (h : s.SameSeen s') (a : Word) :
    (s.memRead a).1 = (s'.memRead a).1 ∧ (s.memRead a).2.SameSeen (s'.memRead a).2 := by
  obtain ⟨m, b, rfl, hb, hm⟩ := sameSeen_iff.1 h
  obtain ⟨b', e, hb'⟩ := memRead_hidden s hb (hm a)
  rw [e]
  exact ⟨rfl, sameSeen_iff.2 ⟨m, b', rfl, hb', by simpa using hm⟩⟩

theorem sameSeen_memWrite {s s' : State} (h : s.SameSeen s') (a v : Word) :
    (s.memWrite a v).SameSeen (s'.memWrite a v) := by
  obtain ⟨m, b, rfl, hb, hm⟩ := sameSeen_iff.1 h
  refine sameSeen_iff.2 ⟨m.write a v, b, rfl, hb, fun c hc => ?_⟩
  rw [memWrite_mem, read_write, read_write, hm c hc]

/-- `f` neither looks at the memory and the keyboard latch nor touches them. -/
def Overlooks (f : State → State) : Prop :=
  ∀ s m r b, f { s with mem := m, kbdReady := r, kbdByte := b } =
    { f s with mem := m, kbdReady := r, kbdByte := b }

theorem sameSeen_overlooks {s s' : State} {f : State → State} (h : s.SameSeen s') (hf : Overlooks f) :
    (f s).SameSeen (f s') := by
  obtain ⟨m, b, rfl, hb, hm⟩ := sameSeen_iff.1 h
  have hown : f s = { f s with mem := s.mem, kbdReady := s.kbdReady, kbdByte := s.kbdByte } :=
    hf s s.mem s.kbdReady s.kbdByte
  rw [hf s m s.kbdReady b, hown]
  exact sameSeen_iff.2 ⟨m, b, rfl, hb, hm⟩

theorem sameSeen_produce {s s' : State} (h : s.SameSeen s') (dr : Reg) (v : Word) :
    (s.produce dr v).SameSeen (s'.produce dr v) :=
  sameSeen_overlooks h (f := fun s => s.produce dr v) fun _ _ _ _ => rfl

theorem sameSeen_setPc {s s' : State} (h : s.SameSeen s') (target : Word) :
    (s.setPc target).SameSeen (s'.setPc target) :=
  sameSeen_overlooks h (f := fun s => s.setPc target) fun _ _ _ _ => rfl

theorem sameSeen_emit {s s' : State} (h : s.SameSeen s') (bs : List Byte) : (s.emit bs).SameSeen (s'.emit bs) :=
  sameSeen_overlooks h (f := fun s => s.emit bs) fun _ _ _ _ => rfl

theorem sameSeen_link {s s' : State} (h : s.SameSeen s') : s.link.SameSeen s'.link :=
  sameSeen_overlooks h (f := State.link) fun _ _ _ _ => rfl

theorem sameSeen_raise {s s' : State} (h : s.SameSeen s') (op : BitVec 4) :
    (s.raiseUnimplementedOpcode op).SameSeen (s'.raiseUnimplementedOpcode op) :=
  sameSeen_overlooks h (f := fun s => s.raiseUnimplementedOpcode op) fun _ _ _ _ => rfl

theorem sameSeen_reg {s s' : State} (h : s.SameSeen s') (r : Reg) : s.reg r = s'.reg r := by
  obtain ⟨_, _, rfl, _⟩ := sameSeen_iff.1 h
  rfl

theorem sameSeen_ite {c : Prop} [Decidable c] {s s' t t' : State} (hs : s.SameSeen s') (ht : t.SameSeen t') :
    (if c then s else t).SameSeen (if c then s' else t') := by
  split
  · exact hs
  · exact ht

/-- The end of a load: a bus read into a register, with its flag. -/
theorem sameSeen_load {s s' : State} (h : s.SameSeen s') (dr : Reg) (a : Word) :
    ((s.memRead a).2.produce dr (s.memRead a).1).SameSeen ((s'.memRead a).2.produce dr (s'.memRead a).1) := by
  obtain ⟨hv, hu⟩ := sameSeen_memRead h a
  rw [← hv]
  exact sameSeen_produce hu dr _

theorem sameSeen_fetch {s s' : State} (h : s.SameSeen s') :
    s.fetch.1 = s'.fetch.1 ∧ s.fetch.2.SameSeen s'.fetch.2 := by
  obtain ⟨_, _, rfl, _⟩ := sameSeen_iff.1 h
  obtain ⟨hv, hu⟩ := sameSeen_memRead h s.pc
  rw [fetch_eq, fetch_eq]
  exact ⟨hv, sameSeen_setPc hu _⟩

theorem sameSeen_pointer9 {s s' : State} (h : s.SameSeen s') (off : BitVec 9) :
    (s.pointer9 off).1 = (s'.pointer9 off).1 ∧ (s.pointer9 off).2.SameSeen (s'.pointer9 off).2 := by
  obtain ⟨_, _, rfl, _⟩ := sameSeen_iff.1 h
  exact sameSeen_memRead h (s.pcRel9 off)

/-! The key wait and the scans from two such states -/

theorem sameSeen_waitReady (n : Nat) {s s' : State} (h : s.SameSeen s') :
    (waitReady n s).2 = (waitReady n s').2 ∧ (waitReady n s).1.SameSeen (waitReady n s').1 := by
  induction n generalizing s s' with
  | zero => exact ⟨rfl, h⟩
  | succ n ih =>
    obtain ⟨hv, hu⟩ := sameSeen_memRead h Config.kbsr
    simp only [waitReady, ← hv]
    split
    · exact ⟨rfl, hu⟩
    · exact ih hu

theorem sameSeen_waitKey {s s' : State} (h : s.SameSeen s') :
    s.waitKey.2 = s'.waitKey.2 ∧ s.waitKey.1.SameSeen s'.waitKey.1 := by
  obtain ⟨_, _, rfl, _⟩ := sameSeen_iff.1 h
  exact sameSeen_waitReady (s.kbd.depth + 1) h

theorem sameSeen_takeKey {s s' : State} (h : s.SameSeen s') (echo : Bool) :
    (s.takeKey echo).SameSeen (s'.takeKey echo) := by
  obtain ⟨hv, hu⟩ := sameSeen_memRead h Config.kbdr
  cases echo with
  | false => exact sameSeen_load h 0 Config.kbdr
  | true =>
    simp only [State.takeKey, ← hv]
    exact sameSeen_produce (sameSeen_emit hu _) 0 _

theorem sameSeen_scanFuel {s s' : State} (h : s.SameSeen s') : s.scanFuel = s'.scanFuel := by
  obtain ⟨_, _, hs', _⟩ := sameSeen_iff.1 h
  rw [State.scanFuel, State.scanFuel, hs']

theorem sameSeen_scanPuts (n : Nat) (a : Word) {s s' t : State} (h : s.SameSeen s') (ht : scanPuts n a s = some t) :
    ∃ t', scanPuts n a s' = some t' ∧ t.SameSeen t' := by
  induction n generalizing a s s' with
  | zero => simp [scanPuts] at ht
  | succ n ih =>
    obtain ⟨hv, hu⟩ := sameSeen_memRead h a
    simp only [scanPuts, ← hv] at ht ⊢
    split at ht
    · cases ht
      exact ⟨_, if_pos ‹_›, hu⟩
    · rw [if_neg ‹_›]
      exact ih _ (sameSeen_emit hu _) ht

theorem sameSeen_scanPutsp (n : Nat) (a : Word) {s s' t : State} (h : s.SameSeen s')
    (ht : scanPutsp n a s = some t) : ∃ t', scanPutsp n a s' = some t' ∧ t.SameSeen t' := by
  induction n generalizing a s s' with
  | zero => simp [scanPutsp] at ht
  | succ n ih =>
    obtain ⟨hv, hu⟩ := sameSeen_memRead h a
    simp only [scanPutsp, ← hv] at ht ⊢
    split at ht
    · cases ht
      exact ⟨_, if_pos ‹_›, hu⟩
    · rw [if_neg ‹_›]
      split at ht
      · cases ht
        exact ⟨_, if_pos ‹_›, sameSeen_emit hu _⟩
      · rw [if_neg ‹_›]
        exact ih _ (sameSeen_emit (sameSeen_emit hu _) _) ht

/-! When a routine completes -/

theorem trapGetc_next_iff {s t : State} :
    trapGetc s = .next t ↔ s.waitKey.2 = true ∧ s.waitKey.1.takeKey false = t := by
  rcases hw : s.waitKey with ⟨w, _ | _⟩ <;> simp [trapGetc, hw]

theorem trapIn_next_iff {s t : State} :
    trapIn s = .next t ↔
      (s.emit Config.inPrompt).waitKey.2 = true ∧ (s.emit Config.inPrompt).waitKey.1.takeKey true = t := by
  rcases hw : (s.emit Config.inPrompt).waitKey with ⟨w, _ | _⟩ <;> simp [trapIn, hw]

theorem trapPuts_next_iff {s t : State} : trapPuts s = .next t ↔ scanPuts s.scanFuel (s.reg 0) s = some t := by
  constructor
  · intro h
    rw [trapPuts] at h
    split at h
    · rename_i u hu
      rw [hu, next_inj h]
    · cases h
  · intro h
    rw [trapPuts, h]

theorem trapPutsp_next_iff {s t : State} : trapPutsp s = .next t ↔ scanPutsp s.scanFuel (s.reg 0) s = some t := by
  constructor
  · intro h
    rw [trapPutsp] at h
    split at h
    · rename_i u hu
      rw [hu, next_inj h]
    · cases h
  · intro h
    rw [trapPutsp, h]

/-! The next states -/

/-- Where `r` is a next state, so is `r'`, and no instruction tells the two apart. -/
def SameNext (r r' : Result) : Prop := ∀ t, r = .next t → ∃ t', r' = .next t' ∧ t.SameSeen t'

theorem SameNext.next {t t' : State} (h : t.SameSeen t') : SameNext (.next t) (.next t') := by
  intro u hu
  obtain rfl := next_inj hu
  exact ⟨t', rfl, h⟩

theorem SameNext.ite {c : Prop} [Decidable c] {r₁ r₂ r₁' r₂' : Result} (h₁ : SameNext r₁ r₁')
    (h₂ : SameNext r₂ r₂') : SameNext (if c then r₁ else r₂) (if c then r₁' else r₂') := by
  split
  · exact h₁
  · exact h₂

theorem sameNext_trapGetc {s s' : State} (h : s.SameSeen s') : SameNext (trapGetc s) (trapGetc s') := by
  intro t ht
  obtain ⟨hready, rfl⟩ := trapGetc_next_iff.1 ht
  obtain ⟨hsame, hw⟩ := sameSeen_waitKey h
  exact ⟨_, trapGetc_next_iff.2 ⟨hsame ▸ hready, rfl⟩, sameSeen_takeKey hw false⟩

theorem sameNext_trapIn {s s' : State} (h : s.SameSeen s') : SameNext (trapIn s) (trapIn s') := by
  intro t ht
  obtain ⟨hready, rfl⟩ := trapIn_next_iff.1 ht
  obtain ⟨hsame, hw⟩ := sameSeen_waitKey (sameSeen_emit h Config.inPrompt)
  exact ⟨_, trapIn_next_iff.2 ⟨hsame ▸ hready, rfl⟩, sameSeen_takeKey hw true⟩

theorem sameNext_trapPuts {s s' : State} (h : s.SameSeen s') : SameNext (trapPuts s) (trapPuts s') := by
  intro t ht
  obtain ⟨t', ht', hsame⟩ := sameSeen_scanPuts _ _ h (trapPuts_next_iff.1 ht)
  rw [sameSeen_scanFuel h, sameSeen_reg h] at ht'
  exact ⟨t', trapPuts_next_iff.2 ht', hsame⟩

theorem sameNext_trapPutsp {s s' : State} (h : s.SameSeen s') : SameNext (trapPutsp s) (trapPutsp s') := by
  intro t ht
  obtain ⟨t', ht', hsame⟩ := sameSeen_scanPutsp _ _ h (trapPutsp_next_iff.1 ht)
  rw [sameSeen_scanFuel h, sameSeen_reg h] at ht'
  exact ⟨t', trapPutsp_next_iff.2 ht', hsame⟩

theorem sameNext_trapOut {s s' : State} (h : s.SameSeen s') : SameNext (trapOut s) (trapOut s') :=
  .next (sameSeen_reg h 0 ▸ sameSeen_emit h _)

theorem sameNext_trapHalt {s s' : State} (h : s.SameSeen s') : SameNext (trapHalt s) (trapHalt s') :=
  .next (sameSeen_overlooks h (f := fun s => { s.emit Config.haltText with run := .halted }) fun _ _ _ _ => rfl)

/-- Every instruction keeps the hidden part hidden: it computes without it, or reads and writes by the bus. -/
theorem sameNext_exec (i : Instr) {s s' : State} (h : s.SameSeen s') : SameNext (exec i s) (exec i s') := by
  have hlink := sameSeen_link h
  obtain ⟨_, _, rfl, _⟩ := sameSeen_iff.1 h
  cases i with
  | addReg | addImm | andReg | andImm | not | lea => exact .next (sameSeen_produce h _ _)
  | br n z p off => exact .next (sameSeen_ite (sameSeen_setPc h _) h)
  | nop off =>
    rw [exec_nop, exec_nop]
    exact .next h
  | jmp | ret => exact .next (sameSeen_setPc h _)
  | jsr | jsrr => exact .next (sameSeen_setPc hlink _)
  | ld | ldr => exact .next (sameSeen_load h _ _)
  | ldi dr off =>
    obtain ⟨hv, hu⟩ := sameSeen_pointer9 h off
    simp only [exec, execLdi, ← hv]
    exact .next (sameSeen_load hu dr _)
  | st | str => exact .next (sameSeen_memWrite h _ _)
  | sti sr off =>
    obtain ⟨hv, hu⟩ := sameSeen_pointer9 h off
    simp only [exec, execSti, ← hv, ← sameSeen_reg hu sr]
    exact .next (sameSeen_memWrite hu _ _)
  | rti | res => exact .next (sameSeen_raise h _)
  | getc => exact sameNext_trapGetc hlink
  | out => exact sameNext_trapOut hlink
  | puts => exact sameNext_trapPuts hlink
  | inp => exact sameNext_trapIn hlink
  | putsp => exact sameNext_trapPutsp hlink
  | halt => exact sameNext_trapHalt hlink
  | trap v =>
    exact .ite (sameNext_trapGetc hlink) (.ite (sameNext_trapOut hlink) (.ite (sameNext_trapPuts hlink)
      (.ite (sameNext_trapIn hlink) (.ite (sameNext_trapPutsp hlink) (.ite (sameNext_trapHalt hlink)
      (.next hlink))))))

theorem sameNext_step {s s' : State} (h : s.SameSeen s') : SameNext (step s) (step s') := by
  intro t ht
  have hrun : s.run = .running := run_of_step_next ht
  obtain ⟨_, _, _, hrun', _⟩ := id h
  obtain ⟨hw, hu⟩ := sameSeen_fetch h
  rw [step_running hrun] at ht
  rw [step_running (hrun' ▸ hrun), ← hw]
  exact sameNext_exec _ hu t ht

end Sys2Proof.Laws
end

section
/-!
SETTLED. The statements of the memory family (20_memory.md).
-/

namespace Sys2Proof.Proofs

open Sys2Proof Sys2Proof.Machine Sys2Proof.Laws

/-- Settles O56: fetch and instruction see the two states alike and leave them so. -/
theorem hiddenStateIsUnobservable : Obligations.HiddenStateIsUnobservable :=
  fun _ _ t h ht => sameNext_step h t ht

/-- Settles O46: each clause is the intercepted read, and then RTI or a no-op by the word it gives. -/
theorem fetchFromKeyboardRegisters : Obligations.FetchFromKeyboardRegisters := by
  intro s hr
  refine ⟨fun hpc h => ?_, fun hpc h hk => ?_, fun b hpc h hk => ?_, fun hpc h hk => ?_, fun more hpc h hk => ?_,
    fun b more hpc h hk => ?_, fun id pos hpc h hk => ?_, fun hpc h => ?_, fun hpc h => ?_⟩
  · exact step_status_ready hr hpc (kbsr_latched s h)
  · exact step_status_empty hr hpc (kbsr_fails s h hk)
  · exact step_status_ready hr hpc (kbsr_delivers s h hk)
  · exact step_status_empty hr hpc (kbsr_silent h hk)
  · exact step_status_empty hr hpc (kbsr_of_poll_fails h (poll_listed hk))
  · exact step_status_ready hr hpc (kbsr_of_poll_delivers h (poll_listed hk))
  · exact step_status_ready hr hpc (kbsr_steady h hk)
  · exact step_data hr hpc (kbdr_latched s h)
  · exact step_data (b := 0x00#8) hr hpc (kbdr_empty s h)

/-- Settles O47: offset 0 from the incremented `pc` is the cell that is fetched next. -/
theorem storeSeenByNextFetch : Obligations.StoreSeenByNextFetch := by
  intro s sr hr hp hp' hd
  have haddr : (s.setPc (s.pc + 1#16)).pcRel9 0#9 = s.pc + 1#16 := BitVec.add_zero _
  refine ⟨(s.setPc (s.pc + 1#16)).memWrite (s.pc + 1#16) (s.reg sr), ?_, rfl, ?_⟩
  · rw [step_of_read hr (memRead_plain s hp), hd, exec_st, haddr, reg_setPc]
  · rw [fetch_plain _ hp', memWrite_mem]
    exact read_write_same _ _ _

/-- Settles O54: every shape of a next state takes its stream from bus reads, which poll from the front. -/
theorem inputConsumedFromFront : Obligations.InputConsumedFromFront := by
  intro i s t h
  cases exec_shape h with
  | produce u _ _ hu _ _ _ _ _ _ e => exact e ▸ hu.out.kbd
  | store u _ _ hu _ _ _ _ _ _ e => exact e ▸ hu.out.kbd
  | jump _ _ _ _ _ e => exact ⟨0, by rw [e]; rfl⟩
  | call _ _ _ _ _ e => exact ⟨0, by rw [e]; rfl⟩
  | key u _ hu _ _ _ _ _ _ _ e => exact e ▸ hu.kbd
  | emits ht => exact ht.kbd
  | halts _ _ _ _ e => exact ⟨0, by rw [e]; rfl⟩
  | raises _ _ _ _ _ e => exact ⟨0, by rw [e]; rfl⟩

/-- Settles O41: the address decoder is the definition of the bus read. -/
theorem busReadDecodesAddress : Obligations.BusReadDecodesAddress := fun _ _ => rfl

/-- Settles O42, by the answer of the poll. -/
theorem statusReadPollsAndLatches : Obligations.StatusReadPollsAndLatches := by
  intro s
  refine ⟨kbsr_latched s, fun more h hk => ?_, fun b more h hk => ?_, fun h hk => ?_, fun id pos h hk => ?_,
    fun id pos h hk => ?_⟩
  · exact kbsr_of_poll_fails h (poll_listed hk)
  · exact kbsr_of_poll_delivers h (poll_listed hk)
  · exact kbsr_silent h hk
  · exact kbsr_steady h hk
  · exact kbsr_congr_poll h (by rw [hk, poll_fitful])

/-- Settles O43. -/
theorem dataReadClearsLatch : Obligations.DataReadClearsLatch := fun s => ⟨kbdr_latched s, kbdr_empty s⟩

/-- Settles O44: a write is an update of the memory, which no keyboard read looks at. -/
theorem writeIsPlainStorage : Obligations.WriteIsPlainStorage := fun s a v =>
  ⟨rfl, fun b => read_write s.mem a b v, memRead_keyboard_mem s _ (by decide), memRead_keyboard_mem s _ (by decide)⟩

end Sys2Proof.Proofs
end

section
/-!
SUPPORT. The decoder and the encoder (30_encoding.md): how a word of each opcode is read, what the fields of an encoded
word are, that a word is its fields put back but for its ignored bits, and sign extension. The opcode of an encoding is
`Laws.opcodeBits`.
-/

namespace Sys2Proof.Laws

open Sys2Proof.Machine

/-! How a word is read, by its opcode and its selector bit (30_encoding.md R52, R53, R60) -/

theorem decode_br {w : Word} (h : w.extractLsb' 12 4 = 0x0#4) :
    decode w = decodeBr (w.getLsbD 11) (w.getLsbD 10) (w.getLsbD 9) (w.extractLsb' 0 9) := decode_op h

theorem decode_add {w : Word} (h : w.extractLsb' 12 4 = 0x1#4) :
    decode w = if w.getLsbD 5 then .addImm (w.extractLsb' 9 3).toFin (w.extractLsb' 6 3).toFin (w.extractLsb' 0 5)
      else .addReg (w.extractLsb' 9 3).toFin (w.extractLsb' 6 3).toFin (w.extractLsb' 0 3).toFin := decode_op h

theorem decode_ld {w : Word} (h : w.extractLsb' 12 4 = 0x2#4) :
    decode w = .ld (w.extractLsb' 9 3).toFin (w.extractLsb' 0 9) := decode_op h

theorem decode_st {w : Word} (h : w.extractLsb' 12 4 = 0x3#4) :
    decode w = .st (w.extractLsb' 9 3).toFin (w.extractLsb' 0 9) := decode_op h

theorem decode_call {w : Word} (h : w.extractLsb' 12 4 = 0x4#4) :
    decode w = if w.getLsbD 11 then .jsr (w.extractLsb' 0 11) else .jsrr (w.extractLsb' 6 3).toFin := decode_op h

theorem decode_and {w : Word} (h : w.extractLsb' 12 4 = 0x5#4) :
    decode w = if w.getLsbD 5 then .andImm (w.extractLsb' 9 3).toFin (w.extractLsb' 6 3).toFin (w.extractLsb' 0 5)
      else .andReg (w.extractLsb' 9 3).toFin (w.extractLsb' 6 3).toFin (w.extractLsb' 0 3).toFin := decode_op h

theorem decode_ldr {w : Word} (h : w.extractLsb' 12 4 = 0x6#4) :
    decode w = .ldr (w.extractLsb' 9 3).toFin (w.extractLsb' 6 3).toFin (w.extractLsb' 0 6) := decode_op h

theorem decode_str {w : Word} (h : w.extractLsb' 12 4 = 0x7#4) :
    decode w = .str (w.extractLsb' 9 3).toFin (w.extractLsb' 6 3).toFin (w.extractLsb' 0 6) := decode_op h

theorem decode_rti {w : Word} (h : w.extractLsb' 12 4 = 0x8#4) : decode w = .rti := decode_op h

theorem decode_not {w : Word} (h : w.extractLsb' 12 4 = 0x9#4) :
    decode w = .not (w.extractLsb' 9 3).toFin (w.extractLsb' 6 3).toFin := decode_op h

theorem decode_ldi {w : Word} (h : w.extractLsb' 12 4 = 0xA#4) :
    decode w = .ldi (w.extractLsb' 9 3).toFin (w.extractLsb' 0 9) := decode_op h

theorem decode_sti {w : Word} (h : w.extractLsb' 12 4 = 0xB#4) :
    decode w = .sti (w.extractLsb' 9 3).toFin (w.extractLsb' 0 9) := decode_op h

theorem decode_jmp {w : Word} (h : w.extractLsb' 12 4 = 0xC#4) :
    decode w = decodeJmp (w.extractLsb' 6 3).toFin := decode_op h

theorem decode_res {w : Word} (h : w.extractLsb' 12 4 = 0xD#4) : decode w = .res := decode_op h

theorem decode_lea {w : Word} (h : w.extractLsb' 12 4 = 0xE#4) :
    decode w = .lea (w.extractLsb' 9 3).toFin (w.extractLsb' 0 9) := decode_op h

theorem decode_trap {w : Word} (h : w.extractLsb' 12 4 = 0xF#4) :
    decode w = decodeTrap (w.extractLsb' 0 8) := decode_op h

theorem decode_addReg {w : Word} (h : w.extractLsb' 12 4 = 0x1#4) (h5 : w.getLsbD 5 = false) :
    decode w = .addReg (w.extractLsb' 9 3).toFin (w.extractLsb' 6 3).toFin (w.extractLsb' 0 3).toFin := by
  rw [decode_add h, h5, if_neg Bool.false_ne_true]

theorem decode_addImm {w : Word} (h : w.extractLsb' 12 4 = 0x1#4) (h5 : w.getLsbD 5 = true) :
    decode w = .addImm (w.extractLsb' 9 3).toFin (w.extractLsb' 6 3).toFin (w.extractLsb' 0 5) := by
  rw [decode_add h, if_pos h5]

theorem decode_jsr {w : Word} (h : w.extractLsb' 12 4 = 0x4#4) (h11 : w.getLsbD 11 = true) :
    decode w = .jsr (w.extractLsb' 0 11) := by
  rw [decode_call h, if_pos h11]

theorem decode_jsrr {w : Word} (h : w.extractLsb' 12 4 = 0x4#4) (h11 : w.getLsbD 11 = false) :
    decode w = .jsrr (w.extractLsb' 6 3).toFin := by
  rw [decode_call h, h11, if_neg Bool.false_ne_true]

theorem decode_andReg {w : Word} (h : w.extractLsb' 12 4 = 0x5#4) (h5 : w.getLsbD 5 = false) :
    decode w = .andReg (w.extractLsb' 9 3).toFin (w.extractLsb' 6 3).toFin (w.extractLsb' 0 3).toFin := by
  rw [decode_and h, h5, if_neg Bool.false_ne_true]

theorem decode_andImm {w : Word} (h : w.extractLsb' 12 4 = 0x5#4) (h5 : w.getLsbD 5 = true) :
    decode w = .andImm (w.extractLsb' 9 3).toFin (w.extractLsb' 6 3).toFin (w.extractLsb' 0 5) := by
  rw [decode_and h, if_pos h5]

/-- The sixteen opcodes (30_encoding.md R51). -/
theorem opcode_cases (k : BitVec 4) :
    k = 0x0#4 ∨ k = 0x1#4 ∨ k = 0x2#4 ∨ k = 0x3#4 ∨ k = 0x4#4 ∨ k = 0x5#4 ∨ k = 0x6#4 ∨ k = 0x7#4 ∨
    k = 0x8#4 ∨ k = 0x9#4 ∨ k = 0xA#4 ∨ k = 0xB#4 ∨ k = 0xC#4 ∨ k = 0xD#4 ∨ k = 0xE#4 ∨ k = 0xF#4 := by
  decide +revert

/-! The narrower rows: which constructor owns a word (30_encoding.md R59, R62, 44_trap.md R101) -/

theorem decodeBr_of_wf {n z p : Bool} {off : BitVec 9} (h : WellFormed (.br n z p off) = true) :
    decodeBr n z p off = .br n z p off := if_pos h

theorem decodeJmp_of_wf {base : Reg} (h : WellFormed (.jmp base) = true) : decodeJmp base = .jmp base :=
  if_neg (bne_iff_ne.mp h)

theorem wf_trap_iff {v : BitVec 8} :
    WellFormed (.trap v) = true ↔
      v ≠ 0x20#8 ∧ v ≠ 0x21#8 ∧ v ≠ 0x22#8 ∧ v ≠ 0x23#8 ∧ v ≠ 0x24#8 ∧ v ≠ 0x25#8 := by
  decide +revert

theorem decodeTrap_of_wf {v : BitVec 8} (h : WellFormed (.trap v) = true) : decodeTrap v = .trap v := by
  obtain ⟨h20, h21, h22, h23, h24, h25⟩ := wf_trap_iff.mp h
  simp [decodeTrap, h20, h21, h22, h23, h24, h25]

theorem decodeBr_wf (n z p : Bool) (off : BitVec 9) : WellFormed (decodeBr n z p off) = true := by
  unfold decodeBr
  split
  · assumption
  · rfl

theorem decodeJmp_wf (base : Reg) : WellFormed (decodeJmp base) = true := by
  unfold decodeJmp
  split
  · rfl
  · exact bne_iff_ne.mpr ‹_›

theorem decodeTrap_wf (v : BitVec 8) : WellFormed (decodeTrap v) = true := by
  decide +revert

theorem encode_decodeBr (n z p : Bool) (off : BitVec 9) : encode (decodeBr n z p off) = encode (.br n z p off) := by
  unfold decodeBr
  split
  · rfl
  · simp_all [encode, put]

theorem encode_decodeJmp (base : Reg) : encode (decodeJmp base) = encode (.jmp base) := by
  unfold decodeJmp
  split
  · simp_all [encode]
  · rfl

theorem encode_decodeTrap (v : BitVec 8) : encode (decodeTrap v) = encode (.trap v) := by
  unfold decodeTrap
  repeat' split
  all_goals simp_all [encode]

/-! The fields of an encoded word (30_encoding.md R63) -/

@[simp] theorem field_put {n : Nat} (v : BitVec n) {lo : Nat} (h : lo + n ≤ 16) :
    (put v lo).extractLsb' lo n = v := by
  refine field_ext _ lo v fun i hi => ?_
  have hlt : lo + i < 16 := by omega
  simp [getLsbD_put, hlt, -BitVec.getLsbD_eq_getElem]

/-- A field that was put below or above another one has no bit in it. -/
@[simp] theorem field_put_apart {n : Nat} (v : BitVec n) {lo lo' m : Nat} (h : lo + n ≤ lo' ∨ lo' + m ≤ lo) :
    (put v lo).extractLsb' lo' m = 0#m := by
  refine field_ext _ lo' _ fun i hi => ?_
  rw [getLsbD_put, BitVec.getLsbD_zero]
  rcases h with h | h
  · rw [BitVec.getLsbD_of_ge v _ (by omega)]
    simp
  · have hlt : ¬ lo ≤ lo' + i := by omega
    simp [hlt]

@[simp] theorem getElem_put {n : Nat} (v : BitVec n) (lo : Nat) {i : Nat} (h : i < 16) :
    (put v lo)[i] = (decide (lo ≤ i) && v.getLsbD (i - lo)) := by
  rw [← BitVec.getLsbD_eq_getElem h, getLsbD_put, decide_eq_true h, Bool.true_and]

/-- R53, R56, R63: each field that the decoder reads is the one that the encoder put there, the others being apart. -/
theorem decode_encode {i : Instr} (h : WellFormed i = true) : decode (encode i) = i := by
  cases i with
  | br n z p off =>
    rw [decode_br (opcodeBits (.br n z p off))]
    simp [encode, BitVec.extractLsb'_or, decodeBr_of_wf h]
  | nop off =>
    rw [decode_br (opcodeBits (.nop off))]
    simp [encode, decodeBr]
  | addReg dr sr1 sr2 =>
    rw [decode_add (opcodeBits (.addReg dr sr1 sr2))]
    simp [encode, putReg, BitVec.extractLsb'_or]
  | addImm dr sr1 imm =>
    rw [decode_add (opcodeBits (.addImm dr sr1 imm))]
    simp [encode, putReg, BitVec.extractLsb'_or]
  | ld dr off =>
    rw [decode_ld (opcodeBits (.ld dr off))]
    simp [encode, putReg, BitVec.extractLsb'_or]
  | st sr off =>
    rw [decode_st (opcodeBits (.st sr off))]
    simp [encode, putReg, BitVec.extractLsb'_or]
  | jsr off =>
    rw [decode_call (opcodeBits (.jsr off))]
    simp [encode, BitVec.extractLsb'_or]
  | jsrr base =>
    rw [decode_call (opcodeBits (.jsrr base))]
    simp [encode, putReg, BitVec.extractLsb'_or]
  | andReg dr sr1 sr2 =>
    rw [decode_and (opcodeBits (.andReg dr sr1 sr2))]
    simp [encode, putReg, BitVec.extractLsb'_or]
  | andImm dr sr1 imm =>
    rw [decode_and (opcodeBits (.andImm dr sr1 imm))]
    simp [encode, putReg, BitVec.extractLsb'_or]
  | ldr dr base off =>
    rw [decode_ldr (opcodeBits (.ldr dr base off))]
    simp [encode, putReg, BitVec.extractLsb'_or]
  | str sr base off =>
    rw [decode_str (opcodeBits (.str sr base off))]
    simp [encode, putReg, BitVec.extractLsb'_or]
  | not dr sr =>
    rw [decode_not (opcodeBits (.not dr sr))]
    simp [encode, putReg, BitVec.extractLsb'_or]
  | ldi dr off =>
    rw [decode_ldi (opcodeBits (.ldi dr off))]
    simp [encode, putReg, BitVec.extractLsb'_or]
  | sti sr off =>
    rw [decode_sti (opcodeBits (.sti sr off))]
    simp [encode, putReg, BitVec.extractLsb'_or]
  | jmp base =>
    rw [decode_jmp (opcodeBits (.jmp base))]
    simp [encode, putReg, BitVec.extractLsb'_or, decodeJmp_of_wf h]
  | lea dr off =>
    rw [decode_lea (opcodeBits (.lea dr off))]
    simp [encode, putReg, BitVec.extractLsb'_or]
  | trap v =>
    rw [decode_trap (opcodeBits (.trap v))]
    simp [encode, BitVec.extractLsb'_or, decodeTrap_of_wf h]
  | rti | ret | res | getc | out | puts | inp | putsp | halt => decide

/-! A field of a word put back in its place is the word cut down to that field, so a word is its fields put back -/

/-- The bits of the field at `lo` of width `n`. -/
def fieldMask (lo n : Nat) : Word := put (BitVec.allOnes n) lo

theorem put_field (w : Word) (lo n : Nat) : put (w.extractLsb' lo n) lo = w &&& fieldMask lo n := by
  refine BitVec.eq_of_getLsbD_eq fun i hi => ?_
  rw [BitVec.getLsbD_and, fieldMask, getLsbD_put, getLsbD_put, BitVec.getLsbD_extractLsb', BitVec.getLsbD_allOnes]
  by_cases hlo : lo ≤ i
  · simp [hi, hlo, Bool.and_comm, -BitVec.getLsbD_eq_getElem]
  · simp [hlo]

theorem putReg_field (w : Word) (lo : Nat) : putReg (w.extractLsb' lo 3).toFin lo = w &&& fieldMask lo 3 :=
  put_field w lo 3

theorem put_opcode {w : Word} {k : BitVec 4} (h : w.extractLsb' 12 4 = k) : put k 12 = w &&& fieldMask 12 4 := by
  rw [← h, put_field]

theorem put_bit (w : Word) (lo : Nat) : put (BitVec.ofBool (w.getLsbD lo)) lo = w &&& fieldMask lo 1 := by
  rw [← put_field]
  congr 1
  refine (field_ext w lo _ fun i hi => ?_).symm
  obtain rfl : i = 0 := by omega
  simp [BitVec.getLsbD_ofBool, -BitVec.getLsbD_eq_getElem]

theorem put_set_bit {w : Word} {lo : Nat} (h : w.getLsbD lo = true) : put 1#1 lo = w &&& fieldMask lo 1 := by
  rw [← put_bit, h]
  rfl

theorem clear_bit {w : Word} {lo : Nat} (h : w.getLsbD lo = false) : w &&& fieldMask lo 1 = 0#16 := by
  simp [← put_bit, h, put]

theorem and_full {w m : Word} (hm : m = BitVec.allOnes 16) : w &&& m = w := by
  rw [hm, BitVec.and_allOnes]

/-- A word cut down to the fields `m` agrees with it wherever these fields cover `k`. -/
theorem agree_of_cover {w m k : Word} (hk : m &&& k = k) : w &&& m &&& k = w &&& k := by
  rw [BitVec.and_assoc, hk]

/-- The same where the fields leave out bits `z` that the word does not have. -/
theorem agree_of_clear {w m z k : Word} (hz : w &&& z = 0#16) (hk : (m ||| z) &&& k = k) :
    w &&& m &&& k = w &&& k := by
  have hmz : w &&& (m ||| z) = w &&& m := by rw [BitVec.and_or_distrib_left, hz, BitVec.or_zero]
  rw [← hmz, agree_of_cover hk]

/-! The formats that ignore no bit: the fields put back are the word (30_encoding.md R56) -/

theorem put_dr_off9_eq {w : Word} {k : BitVec 4} (h : w.extractLsb' 12 4 = k) :
    put k 12 ||| putReg (w.extractLsb' 9 3).toFin 9 ||| put (w.extractLsb' 0 9) 0 = w := by
  simp only [put_opcode h, putReg_field, put_field, ← BitVec.and_or_distrib_left]
  exact and_full (by decide)

theorem put_dr_sr1_off6_eq {w : Word} {k : BitVec 4} (h : w.extractLsb' 12 4 = k) :
    put k 12 ||| putReg (w.extractLsb' 9 3).toFin 9 ||| putReg (w.extractLsb' 6 3).toFin 6 |||
      put (w.extractLsb' 0 6) 0 = w := by
  simp only [put_opcode h, putReg_field, put_field, ← BitVec.and_or_distrib_left]
  exact and_full (by decide)

theorem put_dr_sr1_imm5_eq {w : Word} {k : BitVec 4} (h : w.extractLsb' 12 4 = k) (h5 : w.getLsbD 5 = true) :
    put k 12 ||| putReg (w.extractLsb' 9 3).toFin 9 ||| putReg (w.extractLsb' 6 3).toFin 6 ||| put 1#1 5 |||
      put (w.extractLsb' 0 5) 0 = w := by
  simp only [put_opcode h, putReg_field, put_field, put_set_bit h5, ← BitVec.and_or_distrib_left]
  exact and_full (by decide)

theorem put_off11_eq {w : Word} {k : BitVec 4} (h : w.extractLsb' 12 4 = k) (h11 : w.getLsbD 11 = true) :
    put k 12 ||| put 1#1 11 ||| put (w.extractLsb' 0 11) 0 = w := by
  simp only [put_opcode h, put_field, put_set_bit h11, ← BitVec.and_or_distrib_left]
  exact and_full (by decide)

theorem put_cond_off9_eq {w : Word} (h : w.extractLsb' 12 4 = 0x0#4) :
    put (BitVec.ofBool (w.getLsbD 11)) 11 ||| put (BitVec.ofBool (w.getLsbD 10)) 10 |||
      put (BitVec.ofBool (w.getLsbD 9)) 9 ||| put (w.extractLsb' 0 9) 0 = w := by
  have hop : w &&& fieldMask 12 4 = 0#16 := (put_opcode h).symm
  rw [← BitVec.or_zero (x := put _ 11 ||| _ ||| _ ||| _), ← hop]
  simp only [put_bit, put_field, ← BitVec.and_or_distrib_left]
  exact and_full (by decide)

/-! The formats that ignore bits: the fields put back agree with the word on the others (30_encoding.md R57) -/

/-- The selector, bit 5, is 0 in the word and is not put back. -/
theorem put_dr_sr1_sr2_agrees {w : Word} {k : BitVec 4} (h : w.extractLsb' 12 4 = k) (h5 : w.getLsbD 5 = false) :
    (put k 12 ||| putReg (w.extractLsb' 9 3).toFin 9 ||| putReg (w.extractLsb' 6 3).toFin 6 |||
      putReg (w.extractLsb' 0 3).toFin 0) &&& ~~~0x0018#16 = w &&& ~~~0x0018#16 := by
  simp only [put_opcode h, putReg_field, ← BitVec.and_or_distrib_left]
  exact agree_of_clear (clear_bit h5) (by decide)

theorem encode_jsrr_agrees {w : Word} (h : w.extractLsb' 12 4 = 0x4#4) (h11 : w.getLsbD 11 = false) :
    encode (.jsrr (w.extractLsb' 6 3).toFin) &&& ~~~0x063F#16 = w &&& ~~~0x063F#16 := by
  simp only [encode, put_opcode h, putReg_field, ← BitVec.and_or_distrib_left]
  exact agree_of_clear (clear_bit h11) (by decide)

/-- The encoder writes ones in the ignored bits (30_encoding.md R62). -/
theorem encode_not_agrees {w : Word} (h : w.extractLsb' 12 4 = 0x9#4) :
    encode (.not (w.extractLsb' 9 3).toFin (w.extractLsb' 6 3).toFin) &&& ~~~0x003F#16 = w &&& ~~~0x003F#16 := by
  have hones : put 0x3F#6 0 &&& ~~~0x003F#16 = 0#16 := by decide
  simp only [encode, put_opcode h, putReg_field, ← BitVec.and_or_distrib_left]
  rw [BitVec.and_or_distrib_right, hones, BitVec.or_zero]
  exact agree_of_cover (by decide)

theorem encode_jmp_agrees {w : Word} (h : w.extractLsb' 12 4 = 0xC#4) :
    encode (.jmp (w.extractLsb' 6 3).toFin) &&& ~~~0x0E3F#16 = w &&& ~~~0x0E3F#16 := by
  simp only [encode, put_opcode h, putReg_field, ← BitVec.and_or_distrib_left]
  exact agree_of_cover (by decide)

theorem encode_trap_agrees {w : Word} (h : w.extractLsb' 12 4 = 0xF#4) :
    encode (.trap (w.extractLsb' 0 8)) &&& ~~~0x0F00#16 = w &&& ~~~0x0F00#16 := by
  simp only [encode, put_opcode h, put_field, ← BitVec.and_or_distrib_left]
  exact agree_of_cover (by decide)

theorem put_opcode_agrees {w : Word} {k : BitVec 4} (h : w.extractLsb' 12 4 = k) :
    put k 12 &&& ~~~0x0FFF#16 = w &&& ~~~0x0FFF#16 := by
  rw [put_opcode h]
  exact agree_of_cover (by decide)

/-! Every word and its reading (30_encoding.md R51) -/

theorem decode_wf (w : Word) : WellFormed (decode w) = true := by
  rcases opcode_cases (w.extractLsb' 12 4) with h | h | h | h | h | h | h | h | h | h | h | h | h | h | h | h
  · exact decode_br h ▸ decodeBr_wf ..
  · rw [decode_add h]
    split <;> rfl
  · exact decode_ld h ▸ rfl
  · exact decode_st h ▸ rfl
  · rw [decode_call h]
    split <;> rfl
  · rw [decode_and h]
    split <;> rfl
  · exact decode_ldr h ▸ rfl
  · exact decode_str h ▸ rfl
  · exact decode_rti h ▸ rfl
  · exact decode_not h ▸ rfl
  · exact decode_ldi h ▸ rfl
  · exact decode_sti h ▸ rfl
  · exact decode_jmp h ▸ decodeJmp_wf ..
  · exact decode_res h ▸ rfl
  · exact decode_lea h ▸ rfl
  · exact decode_trap h ▸ decodeTrap_wf ..

/-- Format by format (30_encoding.md R56, R57): the fields that are read cover every bit that is not ignored. -/
theorem encode_decode (w : Word) : encode (decode w) &&& ~~~ignoredBits w = w &&& ~~~ignoredBits w := by
  rcases opcode_cases (w.extractLsb' 12 4) with h | h | h | h | h | h | h | h | h | h | h | h | h | h | h | h
  · rw [decode_br h, encode_decodeBr]
    exact congrArg (· &&& _) (put_cond_off9_eq h)
  · cases h5 : w.getLsbD 5
    · have hi : ignoredBits w = 0x0018#16 := by simp [ignoredBits, Field.op, h, h5, -BitVec.getLsbD_eq_getElem]
      rw [hi, decode_addReg h h5]
      exact put_dr_sr1_sr2_agrees h h5
    · rw [decode_addImm h h5]
      exact congrArg (· &&& _) (put_dr_sr1_imm5_eq h h5)
  · rw [decode_ld h]
    exact congrArg (· &&& _) (put_dr_off9_eq h)
  · rw [decode_st h]
    exact congrArg (· &&& _) (put_dr_off9_eq h)
  · cases h11 : w.getLsbD 11
    · have hi : ignoredBits w = 0x063F#16 := by simp [ignoredBits, Field.op, h, h11, -BitVec.getLsbD_eq_getElem]
      rw [hi, decode_jsrr h h11]
      exact encode_jsrr_agrees h h11
    · rw [decode_jsr h h11]
      exact congrArg (· &&& _) (put_off11_eq h h11)
  · cases h5 : w.getLsbD 5
    · have hi : ignoredBits w = 0x0018#16 := by simp [ignoredBits, Field.op, h, h5, -BitVec.getLsbD_eq_getElem]
      rw [hi, decode_andReg h h5]
      exact put_dr_sr1_sr2_agrees h h5
    · rw [decode_andImm h h5]
      exact congrArg (· &&& _) (put_dr_sr1_imm5_eq h h5)
  · rw [decode_ldr h]
    exact congrArg (· &&& _) (put_dr_sr1_off6_eq h)
  · rw [decode_str h]
    exact congrArg (· &&& _) (put_dr_sr1_off6_eq h)
  · have hi : ignoredBits w = 0x0FFF#16 := by simp [ignoredBits, Field.op, h]
    rw [hi, decode_rti h]
    exact put_opcode_agrees h
  · have hi : ignoredBits w = 0x003F#16 := by simp [ignoredBits, Field.op, h]
    rw [hi, decode_not h]
    exact encode_not_agrees h
  · rw [decode_ldi h]
    exact congrArg (· &&& _) (put_dr_off9_eq h)
  · rw [decode_sti h]
    exact congrArg (· &&& _) (put_dr_off9_eq h)
  · have hi : ignoredBits w = 0x0E3F#16 := by simp [ignoredBits, Field.op, h]
    rw [hi, decode_jmp h, encode_decodeJmp]
    exact encode_jmp_agrees h
  · have hi : ignoredBits w = 0x0FFF#16 := by simp [ignoredBits, Field.op, h]
    rw [hi, decode_res h]
    exact put_opcode_agrees h
  · rw [decode_lea h]
    exact congrArg (· &&& _) (put_dr_off9_eq h)
  · have hi : ignoredBits w = 0x0F00#16 := by simp [ignoredBits, Field.op, h]
    rw [hi, decode_trap h, encode_decodeTrap]
    exact encode_trap_agrees h

/-! Bits flipped where no field is (30_encoding.md R57) -/

theorem field_flip {w x m : Word} {lo n : Nat} (h : m.extractLsb' lo n = 0#n) :
    (w ^^^ (x &&& m)).extractLsb' lo n = w.extractLsb' lo n := by
  rw [BitVec.extractLsb'_xor, BitVec.extractLsb'_and, h, BitVec.and_zero, BitVec.xor_zero]

theorem bit_flip {w x m : Word} {i : Nat} (h : m.getLsbD i = false) :
    (w ^^^ (x &&& m)).getLsbD i = w.getLsbD i := by
  rw [BitVec.getLsbD_xor, BitVec.getLsbD_and, h, Bool.and_false, Bool.xor_false]

theorem op_flip {w x m : Word} {k : BitVec 4} (h : w.extractLsb' 12 4 = k) (hm : m.extractLsb' 12 4 = 0#4) :
    (w ^^^ (x &&& m)).extractLsb' 12 4 = k := (field_flip hm).trans h

/-! Sign extension (30_encoding.md R54) -/

theorem toNat_sext_low {n : Nat} (hn : n ≤ 16) (v : Word) :
    (sext (v.setWidth n)).toNat =
      if v.toNat % 2 ^ n < 2 ^ (n - 1) then v.toNat % 2 ^ n else v.toNat % 2 ^ n + 65536 - 2 ^ n := by
  have hpow : 2 ^ n ≤ 2 ^ 16 := Nat.pow_le_pow_right (by decide) hn
  have hlow : v.toNat % 2 ^ n < 2 ^ n := Nat.mod_lt _ (Nat.two_pow_pos n)
  rw [sext, BitVec.toNat_signExtend, BitVec.msb_eq_decide, BitVec.toNat_setWidth, BitVec.toNat_setWidth,
    Nat.mod_eq_of_lt (by omega)]
  by_cases h : v.toNat % 2 ^ n < 2 ^ (n - 1)
  · simp [h]
  · rw [if_neg h, if_pos (decide_eq_true (Nat.not_lt.mp h))]
    exact (Nat.add_sub_assoc hpow _).symm

end Sys2Proof.Laws
end

section
/-!
SETTLED. The statements of the encoding family (30_encoding.md).
-/

namespace Sys2Proof.Proofs

open Sys2Proof Sys2Proof.Machine Sys2Proof.Laws

/-- Settles O1: every field of an encoding is read back. -/
theorem decodeUndoesEncode : Obligations.DecodeUndoesEncode := fun _ h => decode_encode h

/-- Settles O2: the fields of a word, put back, are the word but for its ignored bits. -/
theorem encodeUndoesDecode : Obligations.EncodeUndoesDecode := fun w => ⟨decode_wf w, encode_decode w⟩

/-- Settles O3: the opcode, the selector bit and every field that is read lie outside the flipped bits. -/
theorem ignoredBitsChangeNothing : Obligations.IgnoredBitsChangeNothing := by
  intro w x m h
  rcases h with ⟨h | h, h5, rfl⟩ | ⟨h, rfl⟩ | ⟨h, rfl⟩ | ⟨h, h11, rfl⟩ | ⟨h, rfl⟩ | ⟨h | h, rfl⟩
  · rw [decode_addReg h h5, decode_addReg (op_flip h (by decide)) ((bit_flip (by decide)).trans h5),
      field_flip (by decide), field_flip (by decide), field_flip (by decide)]
  · rw [decode_andReg h h5, decode_andReg (op_flip h (by decide)) ((bit_flip (by decide)).trans h5),
      field_flip (by decide), field_flip (by decide), field_flip (by decide)]
  · rw [decode_not h, decode_not (op_flip h (by decide)), field_flip (by decide), field_flip (by decide)]
  · rw [decode_jmp h, decode_jmp (op_flip h (by decide)), field_flip (by decide)]
  · rw [decode_jsrr h h11, decode_jsrr (op_flip h (by decide)) ((bit_flip (by decide)).trans h11),
      field_flip (by decide)]
  · rw [decode_trap h, decode_trap (op_flip h (by decide)), field_flip (by decide)]
  · rw [decode_rti h, decode_rti (op_flip h (by decide))]
  · rw [decode_res h, decode_res (op_flip h (by decide))]

/-- Settles O4: the reading of a word by its opcode, one lemma each. -/
theorem opcodeSelectsInstruction : Obligations.OpcodeSelectsInstruction := fun _ =>
  ⟨decode_br, decode_add, decode_ld, decode_st, decode_call, decode_and, decode_ldr, decode_str, decode_rti,
    decode_not, decode_ldi, decode_sti, decode_jmp, decode_res, decode_lea, decode_trap⟩

/-- Settles O5: the decoder computes each of the eighteen words. -/
theorem decodeVectors : Obligations.DecodeVectors := by
  unfold Obligations.DecodeVectors
  decide

/-- Settles O6: one rule for every width up to 16, and the source's own values. -/
theorem signExtension : Obligations.SignExtension := by
  refine ⟨fun v => ⟨toNat_sext_low (by decide) v, toNat_sext_low (by decide) v, toNat_sext_low (by decide) v,
    toNat_sext_low (by decide) v⟩, ?_⟩
  decide

end Sys2Proof.Proofs
end

section
/-!
SUPPORT. ADD, AND and NOT (40_alu.md): each computes one word and ends in `produce`, which writes that word and its flag
and nothing else.
-/

namespace Sys2Proof.Laws

open Sys2Proof.Machine

/-- All that `produce` does (10_state.md R16): the register write and the flag, and no other field. -/
theorem produce_eq (s : State) (dr : Reg) (v : Word) :
    s.produce dr v = { s with regs := s.regs.set dr v, cond := flagOf v } := rfl

theorem exec_addReg (dr sr1 sr2 : Reg) (s : State) :
    exec (.addReg dr sr1 sr2) s = .next (s.produce dr (s.reg sr1 + s.reg sr2)) := rfl

theorem exec_addImm (dr sr1 : Reg) (imm : BitVec 5) (s : State) :
    exec (.addImm dr sr1 imm) s = .next (s.produce dr (s.reg sr1 + sext imm)) := rfl

theorem exec_andReg (dr sr1 sr2 : Reg) (s : State) :
    exec (.andReg dr sr1 sr2) s = .next (s.produce dr (s.reg sr1 &&& s.reg sr2)) := rfl

theorem exec_andImm (dr sr1 : Reg) (imm : BitVec 5) (s : State) :
    exec (.andImm dr sr1 imm) s = .next (s.produce dr (s.reg sr1 &&& sext imm)) := rfl

/-- NOT as a subtraction (40_alu.md R74): the complement of a word is what it lacks to 0xFFFF. -/
theorem exec_not (dr sr : Reg) (s : State) :
    exec (.not dr sr) s = .next (s.produce dr (0xFFFF#16 - s.reg sr)) := by
  have hsub : 0xFFFF#16 - s.reg sr = ~~~(s.reg sr) := BitVec.allOnes_sub_eq_not (s.reg sr)
  rw [hsub]
  rfl

end Sys2Proof.Laws
end

section
/-!
SETTLED. The statements of the arithmetic and logic family (40_alu.md).
-/

namespace Sys2Proof.Proofs

open Sys2Proof Sys2Proof.Machine Sys2Proof.Laws

/-- Settles O10: the sum is one `produce` of the two sources as they stood before it. -/
theorem addRegister : Obligations.AddRegister :=
  ⟨fun _ => decode_addReg, fun dr sr1 sr2 s => by rw [exec_addReg, produce_eq]⟩

/-- Settles O11: the sum is one `produce` of the source and the sign-extended immediate. -/
theorem addImmediate : Obligations.AddImmediate :=
  ⟨fun _ => decode_addImm, fun dr sr1 imm s => by rw [exec_addImm, produce_eq]⟩

/-- Settles O12: the conjunction is one `produce` of the two sources as they stood before it. -/
theorem andRegister : Obligations.AndRegister :=
  ⟨fun _ => decode_andReg, fun dr sr1 sr2 s => by rw [exec_andReg, produce_eq]⟩

/-- Settles O13: the conjunction is one `produce` of the source and the sign-extended immediate. -/
theorem andImmediate : Obligations.AndImmediate :=
  ⟨fun _ => decode_andImm, fun dr sr1 imm s => by rw [exec_andImm, produce_eq]⟩

/-- Settles O14: the complement is 0xFFFF less the source, produced once. -/
theorem notComplements : Obligations.NotComplements :=
  ⟨fun _ => decode_not, fun dr sr s => by rw [exec_not, produce_eq]⟩

end Sys2Proof.Proofs
end

section
/-!
SUPPORT. LD, LDI, LDR and LEA (41_load.md): a load is one or two bus reads and then one `produce` in the state the reads
leave; a bus read leaves the registers as they are, so `produce` writes into the registers from before the reads.
-/

namespace Sys2Proof.Laws

open Sys2Proof.Machine

/-- All that a load does after its bus read: DR and the flag, over what the read did to the keyboard side. -/
theorem produce_memRead (s : State) (a : Word) (dr : Reg) (v : Word) :
    (s.memRead a).2.produce dr v = { (s.memRead a).2 with regs := s.regs.set dr v, cond := flagOf v } := by
  rw [produce_eq, memRead_regs]

theorem exec_ld (dr : Reg) (off : BitVec 9) (s : State) :
    exec (.ld dr off) s =
      .next ((s.memRead (s.pc + sext off)).2.produce dr (s.memRead (s.pc + sext off)).1) := rfl

/-- LDI by its pointer read (41_load.md R81): the data is read in the state that the pointer read leaves. -/
theorem exec_ldi (dr : Reg) (off : BitVec 9) (s : State) :
    exec (.ldi dr off) s =
      .next (((s.pointer9 off).2.memRead (s.pointer9 off).1).2.produce dr
        ((s.pointer9 off).2.memRead (s.pointer9 off).1).1) := rfl

theorem exec_ldr (dr base : Reg) (off : BitVec 6) (s : State) :
    exec (.ldr dr base off) s =
      .next ((s.memRead (s.reg base + sext off)).2.produce dr (s.memRead (s.reg base + sext off)).1) := rfl

theorem exec_lea (dr : Reg) (off : BitVec 9) (s : State) :
    exec (.lea dr off) s = .next (s.produce dr (s.pc + sext off)) := rfl

theorem pointer9_eq (s : State) (off : BitVec 9) : s.pointer9 off = s.memRead (s.pc + sext off) := rfl

end Sys2Proof.Laws
end

section
/-!
SETTLED. The statements of the load family (41_load.md).
-/

namespace Sys2Proof.Proofs

open Sys2Proof Sys2Proof.Machine Sys2Proof.Laws

/-- Settles O15: one bus read, which leaves the registers, and one `produce` of the word it gives. -/
theorem loadPcRelative : Obligations.LoadPcRelative :=
  ⟨fun _ => decode_ld, fun dr off s => by rw [exec_ld, produce_memRead]⟩

/-- Settles O16: the data read starts from what the pointer read leaves, and neither changes a register. -/
theorem loadIndirect : Obligations.LoadIndirect :=
  ⟨fun _ => decode_ldi, fun dr off s => by rw [exec_ldi, pointer9_eq, produce_memRead, memRead_regs]⟩

/-- Settles O17: the address is formed before the one `produce`, so DR may be the base. -/
theorem loadBaseOffset : Obligations.LoadBaseOffset :=
  ⟨fun _ => decode_ldr, fun dr base off s => by rw [exec_ldr, produce_memRead]⟩

/-- Settles O18: one `produce` of the address in the state as it stood, so nothing is read or polled. -/
theorem loadEffectiveAddress : Obligations.LoadEffectiveAddress :=
  ⟨fun _ => decode_lea, fun dr off s => by rw [exec_lea, produce_eq]⟩

end Sys2Proof.Proofs
end

section
/-!
SUPPORT. ST, STI and STR (42_store.md): a store is one `memWrite`, in the state that the pointer read leaves where there
is one; a write changes one cell and no other field. The meaning of ST is `Laws.exec_st`.
-/

namespace Sys2Proof.Laws

open Sys2Proof.Machine

/-- STI by its pointer read (42_store.md R87), which leaves the source register as it stood. -/
theorem exec_sti (sr : Reg) (off : BitVec 9) (s : State) :
    exec (.sti sr off) s = .next ((s.pointer9 off).2.memWrite (s.pointer9 off).1 (s.reg sr)) := by
  have hreg : (s.pointer9 off).2.reg sr = s.reg sr := reg_memRead s _ sr
  rw [← hreg]
  rfl

theorem exec_str (sr base : Reg) (off : BitVec 6) (s : State) :
    exec (.str sr base off) s = .next (s.memWrite (s.baseOff base off) (s.reg sr)) := rfl

/-- A write changes nothing but the memory (20_memory.md R35). -/
theorem memWrite_eq (s : State) (a v : Word) : s.memWrite a v = { s with mem := (s.memWrite a v).mem } := rfl

/-- What every cell reads after a write, by the memory before it. -/
theorem read_memWrite (s : State) (a v b : Word) :
    (s.memWrite a v).mem.read b = if b = a then v else s.mem.read b := by
  rw [memWrite_mem, read_write]

end Sys2Proof.Laws
end

section
/-!
SETTLED. The statements of the store family (42_store.md).
-/

namespace Sys2Proof.Proofs

open Sys2Proof Sys2Proof.Machine Sys2Proof.Laws

/-- Settles O51: of all the shapes of a next state only a store writes memory, and it does so at its own address. -/
theorem memoryKeptButStoredCell : Obligations.MemoryKeptButStoredCell := by
  intro i s t a h ha
  cases exec_shape h with
  | store u b v hu _ _ _ hs _ _ e =>
    have hne : a ≠ b := fun hab => ha (hab ▸ hs)
    rw [e, read_memWrite, if_neg hne, hu.out.mem]
  | produce u _ _ hu _ _ _ _ _ _ e => rw [e, produce_mem, hu.out.mem]
  | jump _ _ _ _ _ e => rw [e, setPc_mem]
  | call _ _ _ _ _ e => rw [e, setPc_mem, link_mem]
  | key u _ hu _ _ _ _ _ _ _ e => rw [e, produce_mem, hu.mem, link_mem]
  | emits ht => rw [ht.mem, link_mem]
  | halts _ _ _ _ e => rw [e, emit_mem, link_mem]
  | raises _ _ _ _ _ e => rw [e, raiseUnimplementedOpcode_mem]

/-- Settles O19: one write at the address relative to `pc`. -/
theorem storePcRelative : Obligations.StorePcRelative :=
  ⟨fun _ => decode_st, fun sr off s => ⟨_, exec_st sr off s, memWrite_eq .., read_memWrite s _ _⟩⟩

/-- Settles O20: one write at the pointer, in the state its read leaves, whose memory is that from before. -/
theorem storeIndirect : Obligations.StoreIndirect := by
  refine ⟨fun _ => decode_sti, fun sr off s => ⟨_, exec_sti sr off s, memWrite_eq .., fun a => ?_⟩⟩
  rw [read_memWrite, pointer9_eq, memRead_mem]

/-- Settles O21: one write at the address relative to the base register. -/
theorem storeBaseOffset : Obligations.StoreBaseOffset :=
  ⟨fun _ => decode_str, fun sr base off s => ⟨_, exec_str sr base off s, memWrite_eq .., read_memWrite s _ _⟩⟩

end Sys2Proof.Proofs
end

section
/-!
SUPPORT. Control transfer (43_control.md): the meaning of BR, JMP, RET, JSR and JSRR, what the link write leaves, and which
instructions keep `pc`. The meaning of NOP is `Laws.exec_nop`.
-/

namespace Sys2Proof.Laws

open Sys2Proof.Machine

/-- The BR test as R90 writes it: `cond` is exactly one flag, so only that flag's bit decides. -/
theorem taken_iff (s : State) (n z p : Bool) :
    s.taken n z p = true ↔
      (n = true ∧ s.cond = .negative) ∨ (z = true ∧ s.cond = .zero) ∨ (p = true ∧ s.cond = .positive) := by
  cases hc : s.cond <;> simp [State.taken, hc]

theorem exec_br (n z p : Bool) (off : BitVec 9) (s : State) :
    exec (.br n z p off) s = .next
      (if (n = true ∧ s.cond = .negative) ∨ (z = true ∧ s.cond = .zero) ∨ (p = true ∧ s.cond = .positive)
       then s.setPc (s.pc + sext off) else s) :=
  congrArg Host.Outcome.next (if_congr (taken_iff s n z p) rfl rfl)

theorem exec_jmp (base : Reg) (s : State) : exec (.jmp base) s = .next (s.setPc (s.reg base)) := rfl

theorem exec_ret (s : State) : exec .ret s = .next (s.setPc (s.reg 7)) := rfl

theorem exec_jsr (off : BitVec 11) (s : State) :
    exec (.jsr off) s = .next (s.link.setPc (s.pc + sext off)) := rfl

/-- JSRR by the state before it (43_control.md R94): R7 as a base register is read after the link write. -/
theorem exec_jsrr (base : Reg) (s : State) :
    exec (.jsrr base) s = .next (s.link.setPc (if base = 7 then s.pc else s.reg base)) := by
  rw [← reg_link]
  rfl

/-- All that a call does: the link register and `pc`. -/
theorem link_setPc_eq (s : State) (target : Word) :
    s.link.setPc target = { s with regs := s.regs.set 7 s.pc, pc := target } := rfl

/-! What the keyboard side, the output and the link write leave alone -/

theorem KbdOut.pc {s t : State} (h : KbdOut s t) : t.pc = s.pc := by
  obtain ⟨_, _, _, _, rfl⟩ := h
  rfl

theorem KbdOut.reg {s t : State} (h : KbdOut s t) (r : Reg) : t.reg r = s.reg r := by
  obtain ⟨_, _, _, _, rfl⟩ := h
  rfl

theorem reg_link_of_ne (s : State) {r : Reg} (h : r ≠ 7) : s.link.reg r = s.reg r := by
  rw [reg_link, if_neg h]

/-! Which instructions keep `pc` (43_control.md R97) -/

/-- Of all the shapes of a next state only a jump and a call write `pc`; both set no flag, store nothing and are quiet,
so an instruction that fails one of the three keeps `pc`. -/
theorem exec_keeps_pc {i : Instr} {s t : State} (h : exec i s = .next t)
    (hi : flagReg i ≠ none ∨ storeAddr i s ≠ none ∨ ¬ quiet i) : t.pc = s.pc := by
  cases exec_shape h with
  | produce u _ _ hu _ _ _ _ _ _ e => rw [e, produce_pc, hu.out.pc]
  | store u _ _ hu _ _ _ _ _ _ e => rw [e, memWrite_pc, hu.out.pc]
  | jump _ hf _ hs hq => simp [hf, hs, hq] at hi
  | call _ hf _ hs hq => simp [hf, hs, hq] at hi
  | key u _ hu _ _ _ _ _ _ _ e => rw [e, produce_pc, hu.pc, link_pc]
  | emits ht => rw [ht.pc, link_pc]
  | halts _ _ _ _ e => rw [e, emit_pc, link_pc]
  | raises _ _ _ _ _ e => rw [e, raiseUnimplementedOpcode_pc]

theorem exec_produce_keeps_pc {i : Instr} {s t : State} (h : exec i s = .next t) (hf : flagReg i ≠ none) :
    t.pc = s.pc := exec_keeps_pc h (.inl hf)

theorem exec_store_keeps_pc {i : Instr} {s t : State} (h : exec i s = .next t) (hs : storeAddr i s ≠ none) :
    t.pc = s.pc := exec_keeps_pc h (.inr (.inl hs))

/-- TRAP stays after itself, whatever its vector (44_trap.md R100). -/
theorem exec_trap_keeps_pc {v : BitVec 8} {s t : State} (h : exec (.trap v) s = .next t) : t.pc = s.pc :=
  exec_keeps_pc h (.inr (.inr (by simp [quiet])))

end Sys2Proof.Laws
end

section
/-!
SETTLED. The statements of the control family (43_control.md).
-/

namespace Sys2Proof.Proofs

open Sys2Proof Sys2Proof.Machine Sys2Proof.Laws

/-- Settles O26: the control transfers and the two faulting opcodes by their meanings; any other instruction sets a
flag, stores or is a TRAP, and so keeps `pc`. -/
theorem pcAfterEveryInstruction : Obligations.PcAfterEveryInstruction := by
  intro i s t h
  cases i with
  | br n z p off =>
    rw [exec_br] at h
    obtain rfl := next_inj h
    exact apply_ite State.pc _ _ _
  | nop off =>
    rw [exec_nop] at h
    exact congrArg State.pc (next_inj h).symm
  | jsrr base =>
    rw [exec_jsrr] at h
    exact congrArg State.pc (next_inj h).symm
  | jmp | ret | jsr => exact congrArg State.pc (next_inj h).symm
  | rti | res =>
    obtain rfl := next_inj h
    exact ⟨raiseUnimplementedOpcode_pc s _, raiseUnimplementedOpcode_run s _⟩
  | addReg | addImm | andReg | andImm | not | ld | ldi | ldr | lea => exact exec_produce_keeps_pc h nofun
  | st | sti | str => exact exec_store_keeps_pc h nofun
  | trap v => exact exec_trap_keeps_pc h
  | getc => exact exec_trap_keeps_pc (v := 0x20#8) h
  | out => exact exec_trap_keeps_pc (v := 0x21#8) h
  | puts => exact exec_trap_keeps_pc (v := 0x22#8) h
  | inp => exact exec_trap_keeps_pc (v := 0x23#8) h
  | putsp => exact exec_trap_keeps_pc (v := 0x24#8) h
  | halt => exact exec_trap_keeps_pc (v := 0x25#8) h

/-- Settles O50: each shape of a next state writes the registers it names and no other. -/
theorem registersKeptBut : Obligations.RegistersKeptBut := by
  intro i s t r h hr
  cases exec_shape h with
  | produce u dr _ hu _ _ hd _ _ _ e =>
    have hne : r ≠ dr := by simpa [hd] using hr
    rw [e, reg_produce, if_neg hne, hu.out.reg]
  | store u _ _ hu _ _ _ _ _ _ e => rw [e, reg_memWrite, hu.out.reg]
  | jump _ _ _ _ _ e => rw [e, reg_setPc]
  | call _ _ hd _ _ e =>
    have h7 : r ≠ 7 := by simpa [hd] using hr
    rw [e, reg_setPc, reg_link_of_ne s h7]
  | key u _ hu _ _ _ hd _ _ _ e =>
    obtain ⟨h7, h0⟩ : r ≠ 7 ∧ r ≠ 0 := by simpa [hd] using hr
    rw [e, reg_produce, if_neg h0, hu.reg, reg_link_of_ne s h7]
  | emits ht _ _ hd =>
    have h7 : r ≠ 7 := by simpa [hd] using hr
    rw [ht.reg, reg_link_of_ne s h7]
  | halts _ hd _ _ e =>
    have h7 : r ≠ 7 := by simpa [hd] using hr
    rw [e]
    exact reg_link_of_ne s h7
  | raises _ _ _ _ _ e => rw [e, reg_raiseUnimplementedOpcode]

/-- Settles O22: the test is R90's, and NOP names no flag. -/
theorem branchTakenOnCondition : Obligations.BranchTakenOnCondition :=
  ⟨fun _ => decode_br, exec_br, exec_nop⟩

/-- Settles O23: RET is the jump through R7. -/
theorem jumpThroughRegister : Obligations.JumpThroughRegister :=
  ⟨fun _ => decode_jmp, exec_jmp, exec_ret⟩

/-- Settles O24: the link write leaves `pc`, so R7 and the base of the offset are the same value. -/
theorem callPcRelative : Obligations.CallPcRelative :=
  ⟨fun _ => decode_jsr, fun off s => by rw [exec_jsr, link_setPc_eq]⟩

/-- Settles O25: the base register is read after the link write. -/
theorem callThroughRegister : Obligations.CallThroughRegister :=
  ⟨fun _ => decode_jsrr, fun base s => by rw [exec_jsrr, link_setPc_eq]⟩

end Sys2Proof.Proofs
end

section
/-!
SUPPORT. The six routines by name (44_trap.md R101), and the key wait of GETC and IN (R103): it is over after the first
poll that delivers, and the routine then takes the latched byte.
-/

namespace Sys2Proof.Laws

open Sys2Proof.Machine

/-! Each routine runs after the link write (44_trap.md R100) -/

theorem exec_getc (s : State) : exec .getc s = trapGetc s.link := rfl

theorem exec_out (s : State) : exec .out s = trapOut s.link := rfl

theorem exec_puts (s : State) : exec .puts s = trapPuts s.link := rfl

theorem exec_inp (s : State) : exec .inp s = trapIn s.link := rfl

theorem exec_putsp (s : State) : exec .putsp s = trapPutsp s.link := rfl

theorem exec_halt (s : State) : exec .halt s = trapHalt s.link := rfl

theorem reg_zero_link (s : State) : s.link.reg 0 = s.reg 0 := reg_link_of_ne s (by decide)

/-! The byte that is taken -/

theorem flagOf_zeroExtended (b : Byte) : flagOf (b.setWidth 16) = if b = 0x00#8 then .zero else .positive := by
  by_cases hb : b = 0x00#8
  · rw [hb]
    rfl
  · have h15 : ¬ (b.setWidth 16).getLsbD 15 = true := by simp
    rw [flagOf, if_neg (setWidth_ne_zero hb), if_neg h15, if_neg hb]

theorem lowByte_zeroExtended (b : Byte) : lowByte (b.setWidth 16) = b := by
  ext i hi
  simp [lowByte, Nat.lt_of_lt_of_le hi]

/-- The end of GETC and of IN where a byte is latched (44_trap.md R104, R107; 20_memory.md R34). -/
theorem takeKey_latched {s : State} (echo : Bool) (h : s.kbdReady = true) :
    s.takeKey echo = { s with
      regs := s.regs.set 0 (s.kbdByte.setWidth 16), cond := if s.kbdByte = 0x00#8 then .zero else .positive,
      kbdReady := false, kbdByte := 0x00#8, out := if echo then s.out ++ [s.kbdByte] else s.out } := by
  simp only [State.takeKey, kbdr_latched s h, lowByte_zeroExtended, State.setcc, flagOf_zeroExtended]
  cases echo <;> rfl

/-! The wait -/

theorem answer_silent (n : Nat) : Kbd.answer n { now := [], rest := .silent } = none := by
  rw [Kbd.answer, drop_silent, poll_silent]

/-- The first key comes within the stream's depth, for a stream that fails so often is silent. -/
theorem first_key_within_depth {k : Kbd} {n : Nat} {b : Byte} (hf : ∀ j, j < n → k.answer j = none)
    (hk : k.answer n = some b) : n < k.depth + 1 := by
  by_contra hn
  obtain ⟨m, rfl⟩ := Nat.exists_eq_add_of_le (Nat.le_of_not_lt hn)
  rw [← answer_drop, drop_depth k fun j hj => hf j (by omega), answer_silent] at hk
  cases hk

theorem waitKey_latched {s : State} (h : s.kbdReady = true) : s.waitKey = (s, true) := waitReady_latched _ s h

theorem waitKey_delivers {s : State} {k : Nat} {b : Byte} (h : s.kbdReady = false)
    (hf : ∀ j, j < k → s.kbd.answer j = none) (hk : s.kbd.answer k = some b) :
    s.waitKey = ({ s with kbd := s.kbd.drop (k + 1), kbdReady := true, kbdByte := b }, true) :=
  waitReady_delivers _ k s h hf hk (first_key_within_depth hf hk)

theorem waitKey_fails {s : State} (h : s.kbdReady = false) (hf : ∀ j, s.kbd.answer j = none) :
    s.waitKey = ({ s with kbd := { now := [], rest := .silent } }, false) := by
  rw [State.waitKey, waitReady_fails _ s h fun j _ => hf j, drop_depth _ fun j _ => hf j]

/-! GETC and IN by their wait; IN waits with the prompt out -/

theorem exec_getc_key {s u : State} (h : s.link.waitKey = (u, true)) : exec .getc s = .next (u.takeKey false) := by
  simp only [exec_getc, trapGetc, h]

theorem exec_getc_hangs {s u : State} (h : s.link.waitKey = (u, false)) : exec .getc s = .fault (.keyWait u) := by
  simp only [exec_getc, trapGetc, h]

theorem exec_inp_key {s u : State} (h : (s.link.emit Config.inPrompt).waitKey = (u, true)) :
    exec .inp s = .next (u.takeKey true) := by
  simp only [exec_inp, trapIn, h]

theorem exec_inp_hangs {s u : State} (h : (s.link.emit Config.inPrompt).waitKey = (u, false)) :
    exec .inp s = .fault (.keyWait u) := by
  simp only [exec_inp, trapIn, h]

end Sys2Proof.Laws
end

section
/-!
SUPPORT. The scans of PUTS and PUTSP word by word (44_trap.md R106, R108): what a run of bus reads gives is what a scan
emits, and more fuel changes no end.
-/

namespace Sys2Proof.Laws

open Sys2Proof.Machine

/-! Runs of bus reads -/

/-- A run of bus reads looks at neither the registers nor the output. -/
theorem readRun_frame (n : Nat) (a : Word) (s : State) (rs : Vector Word 8) (o : List Byte) :
    State.readRun n a { s with regs := rs, out := o } =
      ((s.readRun n a).1, { (s.readRun n a).2 with regs := rs, out := o }) := by
  induction n generalizing a s with
  | zero => rfl
  | succ n ih => simp only [State.readRun, memRead_frame, ih]

theorem readRun_step (n : Nat) (a : Word) (s : State) : KbdStep s (s.readRun n a).2 := by
  induction n generalizing a s with
  | zero => exact KbdStep.refl s
  | succ n ih => exact (memRead_step s a).trans (ih _ _)

theorem readRun_emit (n : Nat) (a : Word) (s : State) (bs : List Byte) :
    (s.emit bs).readRun n a = ((s.readRun n a).1, (s.readRun n a).2.emit bs) := by
  obtain ⟨_, _, _, h⟩ := readRun_step n a s
  refine (readRun_frame n a s s.regs (s.out ++ bs)).trans ?_
  rw [h]
  rfl

theorem readRun_link (n : Nat) (a : Word) (s : State) :
    s.link.readRun n a = ((s.readRun n a).1, { (s.readRun n a).2 with regs := s.regs.set 7 s.pc }) := by
  obtain ⟨_, _, _, h⟩ := readRun_step n a s
  refine (readRun_frame n a s (s.regs.set 7 s.pc) s.out).trans ?_
  rw [h]

/-- The `n` cells from address `a` on. -/
def cellsFrom (n : Nat) (a : Word) (m : Memory) : List Word :=
  (List.range n).map fun k => m.read (a + BitVec.ofNat 16 k)

theorem length_cellsFrom (n : Nat) (a : Word) (m : Memory) : (cellsFrom n a m).length = n := by
  simp [cellsFrom]

theorem cellsFrom_succ (n : Nat) (a : Word) (m : Memory) :
    cellsFrom (n + 1) a m = cellsFrom n a m ++ [m.read (a + BitVec.ofNat 16 n)] := by
  simp [cellsFrom, List.range_succ]

theorem cellsFrom_cons (n : Nat) (a : Word) (m : Memory) :
    cellsFrom (n + 1) a m = m.read a :: cellsFrom n (a + 1#16) m := by
  simp [cellsFrom, List.range_succ_eq_map, Function.comp_def, add_succ]

theorem mem_cellsFrom {n : Nat} {a w : Word} {m : Memory} :
    w ∈ cellsFrom n a m ↔ ∃ k, k < n ∧ m.read (a + BitVec.ofNat 16 k) = w := by
  simp [cellsFrom]

/-- Over plain cells a run of bus reads gives the cells and changes nothing. -/
theorem readRun_plain {n : Nat} {a : Word} {s : State} (h : ∀ k, k < n → plain (a + BitVec.ofNat 16 k) = true) :
    s.readRun n a = (cellsFrom n a s.mem, s) := by
  induction n generalizing a with
  | zero => rfl
  | succ n ih =>
    have h0 : plain a = true := by simpa using h 0 n.succ_pos
    have e := ih fun k hk => add_succ a k ▸ h (k + 1) (Nat.succ_lt_succ hk)
    simp only [State.readRun, memRead_plain s h0, e, cellsFrom_cons]

/-- The reads of a string of `n` plain cells and of the plain cell that ends it. -/
theorem readRun_string {n : Nat} {a : Word} {s : State} (h : ∀ k, k ≤ n → plain (a + BitVec.ofNat 16 k) = true) :
    s.readRun ((cellsFrom n a s.mem).length + 1) a =
      (cellsFrom n a s.mem ++ [s.mem.read (a + BitVec.ofNat 16 n)], s) := by
  rw [length_cellsFrom, readRun_plain fun k hk => h k (Nat.le_of_lt_succ hk), cellsFrom_succ]

theorem emit_emit (s : State) (bs bs' : List Byte) : (s.emit bs).emit bs' = s.emit (bs ++ bs') := by
  simp [State.emit]

theorem emit_nil (s : State) : s.emit [] = s := by
  simp [State.emit]

/-! The scan of PUTS, word by word -/

/-- What PUTS's scan does to the state for a non-zero word at `a`: the bus read and the low byte out. -/
def scanStep (a : Word) (s : State) : State := (s.memRead a).2.emit [lowByte (s.memRead a).1]

theorem scanState_succ (n : Nat) (a : Word) (s : State) :
    scanState (n + 1) a s = scanState n (a + 1#16) (scanStep a s) := rfl

theorem scanPuts_zero_word {n : Nat} {a : Word} {s : State} (h : (s.memRead a).1 = 0x0000#16) :
    scanPuts (n + 1) a s = some (s.memRead a).2 := by
  simp only [scanPuts, if_pos h]

theorem scanPuts_word {n : Nat} {a : Word} {s : State} (h : (s.memRead a).1 ≠ 0x0000#16) :
    scanPuts (n + 1) a s = scanPuts n (a + 1#16) (scanStep a s) := by
  simp only [scanPuts, if_neg h, scanStep]

/-- A scan whose reads give non-zero words and then a zero word. -/
theorem scanPuts_readRun (ws : List Word) {a : Word} {s : State}
    (h : (s.readRun (ws.length + 1) a).1 = ws ++ [0x0000#16]) (hw : ∀ w, w ∈ ws → w ≠ 0x0000#16) :
    scanPuts (ws.length + 1) a s = some ((s.readRun (ws.length + 1) a).2.emit (ws.map lowByte)) := by
  induction ws generalizing a s with
  | nil =>
    have hz : (s.memRead a).1 = 0x0000#16 := (List.cons.inj h).1
    exact (scanPuts_zero_word hz).trans (congrArg some (emit_nil _).symm)
  | cons w ws ih =>
    obtain ⟨rfl, hmore⟩ : (s.memRead a).1 = w ∧
        ((s.memRead a).2.readRun (ws.length + 1) (a + 1#16)).1 = ws ++ [0x0000#16] := List.cons.inj h
    have e := ih (a := a + 1#16) (s := scanStep a s)
      (by rw [scanStep, readRun_emit]; exact hmore) fun w' hw' => hw w' (List.mem_cons_of_mem _ hw')
    rw [List.length_cons, scanPuts_word (hw _ List.mem_cons_self), e, scanStep, readRun_emit, emit_emit]
    rfl

theorem scanPuts_fuel_le {n m : Nat} {a : Word} {s t : State} (h : scanPuts n a s = some t) (hnm : n ≤ m) :
    scanPuts m a s = some t := by
  induction n generalizing m a s with
  | zero => simp [scanPuts] at h
  | succ n ih =>
    obtain ⟨m, rfl⟩ : ∃ m', m = m' + 1 := ⟨m - 1, by omega⟩
    by_cases hz : (s.memRead a).1 = 0x0000#16
    · rw [scanPuts_zero_word hz] at h ⊢
      exact h
    · rw [scanPuts_word hz] at h ⊢
      exact ih h (Nat.le_of_succ_le_succ hnm)

/-! The scan of PUTSP, word by word -/

theorem scanPutsp_low_zero {n : Nat} {a : Word} {s : State} (h : lowByte (s.memRead a).1 = 0x00#8) :
    scanPutsp (n + 1) a s = some (s.memRead a).2 := by
  simp only [scanPutsp, if_pos h]

theorem scanPutsp_high_zero {n : Nat} {a : Word} {s : State} (h : lowByte (s.memRead a).1 ≠ 0x00#8)
    (h' : highByte (s.memRead a).1 = 0x00#8) :
    scanPutsp (n + 1) a s = some ((s.memRead a).2.emit [lowByte (s.memRead a).1]) := by
  simp only [scanPutsp, if_neg h, if_pos h']

theorem scanPutsp_word {n : Nat} {a : Word} {s : State} (h : lowByte (s.memRead a).1 ≠ 0x00#8)
    (h' : highByte (s.memRead a).1 ≠ 0x00#8) :
    scanPutsp (n + 1) a s = scanPutsp n (a + 1#16)
      ((s.memRead a).2.emit [lowByte (s.memRead a).1, highByte (s.memRead a).1]) := by
  simp only [scanPutsp, if_neg h, if_neg h', emit_emit, List.singleton_append]

/-- A scan whose reads give words of two non-zero bytes and then a word with a zero byte. -/
theorem scanPutsp_readRun (ws : List Word) {z a : Word} {s : State}
    (h : (s.readRun (ws.length + 1) a).1 = ws ++ [z])
    (hw : ∀ w, w ∈ ws → lowByte w ≠ 0x00#8 ∧ highByte w ≠ 0x00#8) (hz : lowByte z = 0x00#8 ∨ highByte z = 0x00#8) :
    scanPutsp (ws.length + 1) a s = some ((s.readRun (ws.length + 1) a).2.emit
      ((ws.flatMap fun w => [lowByte w, highByte w]) ++ if lowByte z = 0x00#8 then [] else [lowByte z])) := by
  induction ws generalizing a s with
  | nil =>
    obtain rfl : (s.memRead a).1 = z := (List.cons.inj h).1
    by_cases hlow : lowByte (s.memRead a).1 = 0x00#8
    · rw [if_pos hlow]
      exact (scanPutsp_low_zero hlow).trans (congrArg some (emit_nil _).symm)
    · rw [if_neg hlow]
      exact scanPutsp_high_zero hlow (hz.resolve_left hlow)
  | cons w ws ih =>
    obtain ⟨rfl, hmore⟩ : (s.memRead a).1 = w ∧
        ((s.memRead a).2.readRun (ws.length + 1) (a + 1#16)).1 = ws ++ [z] := List.cons.inj h
    obtain ⟨hlow, hhigh⟩ := hw _ List.mem_cons_self
    have e := ih (a := a + 1#16) (s := (s.memRead a).2.emit [lowByte (s.memRead a).1, highByte (s.memRead a).1])
      (by rw [readRun_emit]; exact hmore) fun w' hw' => hw w' (List.mem_cons_of_mem _ hw')
    rw [List.length_cons, scanPutsp_word hlow hhigh, e, readRun_emit, emit_emit, List.flatMap_cons, List.append_assoc]
    rfl

theorem scanPutsp_fuel_le {n m : Nat} {a : Word} {s t : State} (h : scanPutsp n a s = some t) (hnm : n ≤ m) :
    scanPutsp m a s = some t := by
  induction n generalizing m a s with
  | zero => simp [scanPutsp] at h
  | succ n ih =>
    obtain ⟨m, rfl⟩ : ∃ m', m = m' + 1 := ⟨m - 1, by omega⟩
    by_cases hlow : lowByte (s.memRead a).1 = 0x00#8
    · rw [scanPutsp_low_zero hlow] at h ⊢
      exact h
    by_cases hhigh : highByte (s.memRead a).1 = 0x00#8
    · rw [scanPutsp_high_zero hlow hhigh] at h ⊢
      exact h
    · rw [scanPutsp_word hlow hhigh] at h ⊢
      exact ih h (Nat.le_of_succ_le_succ hnm)

end Sys2Proof.Laws
end

section
/-!
SUPPORT. How much fuel decides a scan (44_trap.md R113; log entry 9). PUTSP is decided by one round of the addresses.
For PUTS every round takes one key, so a scan that outlasts the stream's depth takes keys of a steady stream, and no
fuel ends it.
-/

namespace Sys2Proof.Laws

open Sys2Proof.Machine

/-! PUTSP ends at the status register (20_memory.md R33) -/

/-- The status word has nothing but bit 15. -/
theorem lowByte_kbsr (s : State) : lowByte (s.memRead Config.kbsr).1 = 0x00#8 := by
  have h : (s.memRead Config.kbsr).1 = if s.pollLatch.kbdReady then 0x8000#16 else 0x0000#16 := rfl
  rw [h]
  split <;> rfl

theorem scanPutsp_ends_at_kbsr {n k : Nat} {a : Word} (s : State) (hk : k < n)
    (h : a + BitVec.ofNat 16 k = Config.kbsr) : ∃ t, scanPutsp n a s = some t := by
  induction k generalizing n a s with
  | zero =>
    obtain ⟨n, rfl⟩ : ∃ n', n = n' + 1 := ⟨n - 1, by omega⟩
    obtain rfl : a = Config.kbsr := by simpa using h
    exact ⟨_, scanPutsp_low_zero (lowByte_kbsr s)⟩
  | succ k ih =>
    obtain ⟨n, rfl⟩ : ∃ n', n = n' + 1 := ⟨n - 1, by omega⟩
    by_cases hlow : lowByte (s.memRead a).1 = 0x00#8
    · exact ⟨_, scanPutsp_low_zero hlow⟩
    by_cases hhigh : highByte (s.memRead a).1 = 0x00#8
    · exact ⟨_, scanPutsp_high_zero hlow hhigh⟩
    · rw [scanPutsp_word hlow hhigh]
      exact ih _ (Nat.lt_of_succ_lt_succ hk) (by rw [add_succ, h])

theorem scanFuel_ge (s : State) : 65536 ≤ s.scanFuel := by
  rw [State.scanFuel]
  omega

/-- The model's bound is at least a round, and no round passes the status register. -/
theorem scanPutsp_ends (a : Word) (s : State) : ∃ t, scanPutsp s.scanFuel a s = some t := by
  obtain ⟨k, hk, h⟩ := reach a Config.kbsr
  exact scanPutsp_ends_at_kbsr s (Nat.lt_of_lt_of_le hk (scanFuel_ge s)) h

/-! The keys that a scan of PUTS takes, round by round -/

/-- Key number `n` that is read next: the latched byte where there is one, and then the answers of the polls. -/
def keyAt (n : Nat) (s : State) : Option Byte :=
  match s.kbdReady, n with
  | true, 0 => some s.kbdByte
  | true, n + 1 => s.kbd.answer n
  | false, n => s.kbd.answer n

theorem keyAt_latched {s : State} (h : s.kbdReady = true) : keyAt 0 s = some s.kbdByte := by
  simp [keyAt, h]

theorem keyAt_succ_latched {s : State} (n : Nat) (h : s.kbdReady = true) : keyAt (n + 1) s = s.kbd.answer n := by
  simp [keyAt, h]

theorem keyAt_empty {s : State} (n : Nat) (h : s.kbdReady = false) : keyAt n s = s.kbd.answer n := by
  simp [keyAt, h]

theorem scanPuts_succ_none {n : Nat} {a : Word} {s : State} :
    scanPuts (n + 1) a s = none ↔
      (s.memRead a).1 ≠ 0x0000#16 ∧ scanPuts n (a + 1#16) (scanStep a s) = none := by
  by_cases hz : (s.memRead a).1 = 0x0000#16
  · simp [scanPuts_zero_word hz, hz]
  · simp [scanPuts_word hz, hz]

/-- A status read that reports a key has it latched, and takes none. -/
theorem scanStep_kbsr {s : State} (h : (s.memRead Config.kbsr).1 ≠ 0x0000#16) :
    (scanStep Config.kbsr s).kbdReady = true ∧ ∀ n, keyAt n (scanStep Config.kbsr s) = keyAt n s := by
  cases hr : s.kbdReady with
  | true =>
    rw [scanStep, kbsr_latched s hr]
    exact ⟨hr, fun _ => rfl⟩
  | false =>
    cases hp : s.kbd.answer 0 with
    | none => simp [kbsr_fails s hr hp] at h
    | some b =>
      rw [scanStep, kbsr_delivers s hr hp]
      refine ⟨rfl, fun n => ?_⟩
      rw [keyAt_empty n hr]
      cases n with
      | zero => exact hp.symm
      | succ n => rfl

/-- A data read of a latched non-zero byte takes it. -/
theorem scanStep_kbdr {s : State} (hr : s.kbdReady = true) (h : (s.memRead Config.kbdr).1 ≠ 0x0000#16) :
    (∃ b, keyAt 0 s = some b ∧ b ≠ 0x00#8) ∧ ∀ n, keyAt n (scanStep Config.kbdr s) = keyAt (n + 1) s := by
  rw [scanStep, kbdr_latched s hr]
  rw [kbdr_latched s hr] at h
  refine ⟨⟨s.kbdByte, keyAt_latched hr, fun hb => h (by rw [hb]; rfl)⟩, fun n => ?_⟩
  rw [keyAt_succ_latched n hr]
  rfl

theorem scanStep_plain (s : State) {a : Word} (h : plain a = true) :
    (scanStep a s).kbdReady = s.kbdReady ∧ ∀ n, keyAt n (scanStep a s) = keyAt n s := by
  rw [scanStep, memRead_plain s h]
  exact ⟨rfl, fun _ => rfl⟩

theorem keyAt_scanState_plain {n : Nat} {a : Word} (s : State)
    (h : ∀ k, k < n → plain (a + BitVec.ofNat 16 k) = true) (j : Nat) : keyAt j (scanState n a s) = keyAt j s := by
  obtain ⟨o, ho⟩ := scanState_plain n a s h
  rw [ho]
  rfl

/-- From the cell after the data register on, the rest of a round is plain. -/
theorem plain_after_kbdr {k : Nat} (h : k < 65533) : plain (0xFE03#16 + BitVec.ofNat 16 k) = true := by
  have h0 : 0xFE03#16 + BitVec.ofNat 16 k ≠ Config.kbsr := by
    rw [Config.kbsr]
    bv_omega
  have h2 : 0xFE03#16 + BitVec.ofNat 16 k ≠ Config.kbdr := by
    rw [Config.kbdr]
    bv_omega
  simp [plain, h0, h2]

/-- A round of PUTS's scan from the status register takes the next key, which is not zero. -/
theorem round_takes_key {n : Nat} {s : State} (h : scanPuts (n + 3) Config.kbsr s = none) (hn : n ≤ 65533) :
    (∃ b, keyAt 0 s = some b ∧ b ≠ 0x00#8) ∧
      ∀ j, keyAt j (scanState (n + 3) Config.kbsr s) = keyAt (j + 1) s := by
  have hnext : Config.kbsr + 1#16 = 0xFE01#16 := rfl
  have hdr : 0xFE01#16 + 1#16 = Config.kbdr := rfl
  have hafter : Config.kbdr + 1#16 = 0xFE03#16 := rfl
  obtain ⟨hstatus, h⟩ := scanPuts_succ_none.1 h
  rw [hnext] at h
  obtain ⟨-, h⟩ := scanPuts_succ_none.1 h
  rw [hdr] at h
  obtain ⟨hdata, -⟩ := scanPuts_succ_none.1 h
  obtain ⟨hready, hreport⟩ := scanStep_kbsr hstatus
  obtain ⟨hready', hbetween⟩ := scanStep_plain (scanStep Config.kbsr s) (a := 0xFE01#16) (by decide)
  obtain ⟨⟨b, hb, hz⟩, htake⟩ := scanStep_kbdr (hready'.trans hready) hdata
  refine ⟨⟨b, (hreport 0).symm.trans ((hbetween 0).symm.trans hb), hz⟩, fun j => ?_⟩
  rw [scanState_succ, hnext, scanState_succ, hdr, scanState_succ, hafter,
    keyAt_scanState_plain _ fun k hk => plain_after_kbdr (Nat.lt_of_lt_of_le hk hn), htake, hbetween, hreport]

/-- As many rounds as are scanned without a zero word, so many keys to come are not zero. -/
theorem rounds_take_keys {n : Nat} {s : State} (h : scanPuts (65536 * n) Config.kbsr s = none) :
    ∀ j, j < n → ∃ b, keyAt j s = some b ∧ b ≠ 0x00#8 := by
  induction n generalizing s with
  | zero => exact fun j hj => absurd hj j.not_lt_zero
  | succ n ih =>
    have hsplit : 65536 * (n + 1) = 65536 + 65536 * n := by omega
    have hround : Config.kbsr + BitVec.ofNat 16 65536 = Config.kbsr := rfl
    rw [hsplit, scanPuts_add, hround] at h
    obtain ⟨hkey, hkeys⟩ := round_takes_key (n := 65533) h.1 (Nat.le_refl _)
    intro j hj
    cases j with
    | zero => exact hkey
    | succ j => exact hkeys j ▸ ih h.2 j (Nat.lt_of_succ_lt_succ hj)

/-- The word that read number `k` of a scan meets is not zero, where the scan goes on. -/
theorem scanPuts_word_ne_zero {n k : Nat} {a : Word} {s : State} (h : scanPuts n a s = none) (hk : k < n) :
    ((scanState k a s).memRead (a + BitVec.ofNat 16 k)).1 ≠ 0x0000#16 :=
  (scanPuts_succ_none.1 ((scanPuts_add k 1 a s).1 (scanPuts_mono a s h hk)).2).1

/-- A round that meets no zero word has read every plain cell. -/
theorem round_reads_cells {a : Word} {s : State} {n : Nat} (h : scanPuts n a s = none) (hn : 65536 ≤ n) {c : Word}
    (hc : plain c = true) : s.mem.read c ≠ 0x0000#16 := by
  obtain ⟨k, hk, rfl⟩ := reach a c
  have hword := scanPuts_word_ne_zero h (Nat.lt_of_lt_of_le hk hn)
  rwa [memRead_plain _ hc, (scanState_out k a s).mem] at hword

theorem memRead_keeps_kbd {s : State} {a : Word} (h : a ≠ Config.kbsr) : (s.memRead a).2.kbd = s.kbd := by
  rcases memRead_cases s a with ⟨_, e⟩ | ⟨ha, _⟩ | ⟨ha, _⟩ | ⟨_, ha, _⟩ | ⟨_, _, e⟩ | ⟨_, _, e⟩
  · rw [e]
  · exact absurd ha h
  · exact absurd ha h
  · exact absurd ha h
  · rw [e]
  · rw [e]

/-- Until a scan reads the status register it polls nothing (20_memory.md R33). -/
theorem scanState_keeps_kbd {k : Nat} {a : Word} (s : State) (h : ∀ j, j < k → a + BitVec.ofNat 16 j ≠ Config.kbsr) :
    (scanState k a s).kbd = s.kbd := by
  induction k generalizing a s with
  | zero => rfl
  | succ k ih =>
    have h0 : a ≠ Config.kbsr := by simpa using h 0 k.succ_pos
    rw [scanState, ih _ fun j hj => add_succ a j ▸ h (j + 1) (Nat.succ_lt_succ hj), emit_kbd, memRead_keeps_kbd h0]

/-- The first status read of a scan comes within a round, with the stream untouched. -/
theorem first_kbsr (a : Word) (s : State) :
    ∃ k, k < 65536 ∧ a + BitVec.ofNat 16 k = Config.kbsr ∧ (scanState k a s).kbd = s.kbd := by
  have hreach := reach a Config.kbsr
  obtain ⟨hk, hkbsr⟩ := Nat.find_spec hreach
  refine ⟨Nat.find hreach, hk, hkbsr, scanState_keeps_kbd s fun j hj hj' => ?_⟩
  exact Nat.find_min hreach hj ⟨Nat.lt_trans hj hk, hj'⟩

/-! The bound hides no terminator (44_trap.md R113) -/

/-- A scan from the status register that takes more keys than the stream's depth takes those of a steady stream, and
then nothing that it can read is zero. -/
theorem endless_of_rounds {s : State} (h : scanPuts (65536 * (s.kbd.depth + 2)) Config.kbsr s = none) :
    Endless Config.kbsr s ∧ ∃ id pos, s.kbd.rest = .steady id pos := by
  have hkeys := rounds_take_keys h
  have hanswers : ∀ j, j < s.kbd.depth + 1 → ∃ b, s.kbd.answer j = some b ∧ b ≠ 0x00#8 := by
    intro j hj
    cases hr : s.kbdReady with
    | true => exact keyAt_succ_latched j hr ▸ hkeys (j + 1) (Nat.succ_lt_succ hj)
    | false => exact keyAt_empty j hr ▸ hkeys j (Nat.lt_succ_of_lt hj)
  obtain ⟨hsteady, hall⟩ := steady_of_keys s.kbd hanswers
  refine ⟨⟨fun c => round_reads_cells h (by omega), hall, ?_⟩, hsteady⟩
  cases hr : s.kbdReady with
  | true =>
    obtain ⟨b, hb, hz⟩ := hkeys 0 (Nat.succ_pos _)
    obtain rfl := Option.some.inj ((keyAt_latched hr).symm.trans hb)
    exact .inl ⟨rfl, hz⟩
  | false => exact .inr ⟨rfl, by decide, by decide⟩

/-- Where the model's search meets no terminator there is none, and all keys to come are those of a steady stream. -/
theorem scanPuts_never_ends {a : Word} {s : State} (h : scanPuts s.scanFuel a s = none) :
    (∀ n, scanPuts n a s = none) ∧ (∃ id pos, s.kbd.rest = .steady id pos) ∧ ∀ j, s.kbd.answer j ≠ none := by
  obtain ⟨k, hk, hkbsr, hkbd⟩ := first_kbsr a s
  have hfuel : k + 65536 * (s.kbd.depth + 2) ≤ s.scanFuel := by
    rw [State.scanFuel]
    omega
  obtain ⟨hbefore, hrounds⟩ := (scanPuts_add k _ a s).1 (scanPuts_mono a s h hfuel)
  rw [hkbsr, ← hkbd] at hrounds
  obtain ⟨hendless, hsteady⟩ := endless_of_rounds hrounds
  rw [hkbd] at hsteady
  refine ⟨fun n => ?_, hsteady, fun j hj => ?_⟩
  · have hall : scanPuts (k + n) a s = none :=
      (scanPuts_add k n a s).2 ⟨hbefore, hkbsr.symm ▸ scanPuts_endless n hendless⟩
    exact scanPuts_mono a s hall (Nat.le_add_left n k)
  · obtain ⟨_, hanswers, _⟩ := hendless
    obtain ⟨b, hb, _⟩ := hanswers j
    rw [hkbd, hj] at hb
    cases hb

/-! PUTS and PUTSP by a scan of any length -/

theorem trapPuts_fault_iff {s : State} :
    trapPuts s = .fault .endlessString ↔ scanPuts s.scanFuel (s.reg 0) s = none := by
  constructor
  · intro h
    rw [trapPuts] at h
    split at h
    · cases h
    · assumption
  · intro h
    rw [trapPuts, h]

theorem exec_puts_fault_iff {s : State} :
    exec .puts s = .fault .endlessString ↔ scanPuts s.link.scanFuel (s.reg 0) s.link = none := by
  rw [exec_puts, trapPuts_fault_iff, reg_zero_link]

/-- PUTS completes as soon as a scan of some length ends. -/
theorem exec_puts_of_scan {s t : State} {n : Nat} (h : scanPuts n (s.reg 0) s.link = some t) :
    exec .puts s = .next t := by
  rw [exec_puts, trapPuts_next_iff, reg_zero_link]
  cases hF : scanPuts s.link.scanFuel (s.reg 0) s.link with
  | none =>
    rw [(scanPuts_never_ends hF).1 n] at h
    cases h
  | some u =>
    rcases Nat.le_total n s.link.scanFuel with hle | hle
    · rw [← hF, scanPuts_fuel_le h hle]
    · rw [← h, scanPuts_fuel_le hF hle]

/-- PUTSP completes as soon as a scan of some length ends. -/
theorem exec_putsp_of_scan {s t : State} {n : Nat} (h : scanPutsp n (s.reg 0) s.link = some t) :
    exec .putsp s = .next t := by
  rw [exec_putsp, trapPutsp_next_iff, reg_zero_link]
  obtain ⟨u, hu⟩ := scanPutsp_ends (s.reg 0) s.link
  rcases Nat.le_total n s.link.scanFuel with hle | hle
  · exact scanPutsp_fuel_le h hle
  · rw [hu, ← h, scanPutsp_fuel_le hu hle]

/-- PUTS over any run of bus reads, said by the state before the link write. -/
theorem exec_puts_readRun {s : State} {ws : List Word}
    (h : (s.readRun (ws.length + 1) (s.reg 0)).1 = ws ++ [0x0000#16]) (hw : ∀ w, w ∈ ws → w ≠ 0x0000#16) :
    exec .puts s = .next { (s.readRun (ws.length + 1) (s.reg 0)).2 with
      regs := s.regs.set 7 s.pc, out := s.out ++ ws.map lowByte } := by
  have e := exec_puts_of_scan (scanPuts_readRun ws (s := s.link) (by rw [readRun_link]; exact h) hw)
  obtain ⟨_, _, _, hstep⟩ := readRun_step (ws.length + 1) (s.reg 0) s
  rw [e, readRun_link, hstep]
  rfl

/-- PUTSP over any run of bus reads, said by the state before the link write. -/
theorem exec_putsp_readRun {s : State} {ws : List Word} {z : Word}
    (h : (s.readRun (ws.length + 1) (s.reg 0)).1 = ws ++ [z])
    (hw : ∀ w, w ∈ ws → lowByte w ≠ 0x00#8 ∧ highByte w ≠ 0x00#8) (hz : lowByte z = 0x00#8 ∨ highByte z = 0x00#8) :
    exec .putsp s = .next { (s.readRun (ws.length + 1) (s.reg 0)).2 with
      regs := s.regs.set 7 s.pc, out := s.out ++ (ws.flatMap fun w => [lowByte w, highByte w]) ++
        if lowByte z = 0x00#8 then [] else [lowByte z] } := by
  have e := exec_putsp_of_scan (scanPutsp_readRun ws (s := s.link) (by rw [readRun_link]; exact h) hw hz)
  obtain ⟨_, _, _, hstep⟩ := readRun_step (ws.length + 1) (s.reg 0) s
  rw [e, readRun_link, hstep, List.append_assoc]
  rfl

/-! The output, kept or grown (44_trap.md R102) -/

theorem KbdOut.out_grows {s t : State} (h : KbdOut s t) : ∃ bs, t.out = s.out ++ bs := by
  obtain ⟨_, _, _, o, rfl⟩ := h
  exact ⟨o, rfl⟩

theorem KbdStep.out_kept {s t : State} (h : KbdStep s t) : t.out = s.out := by
  obtain ⟨_, _, _, rfl⟩ := h
  rfl

/-- Output that is kept has grown by nothing, and is kept under any condition `q`. -/
theorem out_grows_of_kept {s t : State} {q : Prop} (h : t.out = s.out) :
    (∃ bs, t.out = s.out ++ bs) ∧ (q → t.out = s.out) :=
  ⟨⟨[], h.trans (List.append_nil _).symm⟩, fun _ => h⟩

end Sys2Proof.Laws
end

section
/-!
SETTLED. The statements of the TRAP family (44_trap.md).
-/

namespace Sys2Proof.Proofs

open Sys2Proof Sys2Proof.Machine Sys2Proof.Laws

/-- Settles O29: the wait latches the byte, unless one is latched, and the routine takes it. -/
theorem getcTakesNextKey : Obligations.GetcTakesNextKey := by
  intro s k b
  refine ⟨fun hr hb => ?_, fun hr hf hk => ?_⟩
  · subst hb
    rw [exec_getc_key (waitKey_latched hr), takeKey_latched (s := s.link) false hr]
    rfl
  · rw [exec_getc_key (waitKey_delivers hr hf hk), takeKey_latched false rfl]
    rfl

/-- Settles O30: as GETC, from the state with the prompt out. -/
theorem inPromptsTakesEchoes : Obligations.InPromptsTakesEchoes := by
  intro s k b
  refine ⟨fun hr hb => ?_, fun hr hf hk => ?_⟩
  · subst hb
    rw [exec_inp_key (waitKey_latched hr), takeKey_latched (s := s.link.emit Config.inPrompt) true hr]
    rfl
  · rw [exec_inp_key (waitKey_delivers hr hf hk), takeKey_latched true rfl]
    rfl

/-- Settles O31: a wait whose every poll fails uses up the stream. -/
theorem keyWaitWithoutKeysHangs : Obligations.KeyWaitWithoutKeysHangs := fun _ hr hf =>
  ⟨exec_getc_hangs (waitKey_fails hr hf), exec_inp_hangs (waitKey_fails hr hf)⟩

/-- Settles O33: the scan of the string and its zero word ends, and plain cells are what a run of bus reads gives. -/
theorem putsEmitsString : Obligations.PutsEmitsString := by
  refine ⟨fun s ws h hw => exec_puts_readRun h hw, fun s n hplain hcells hzero => ?_⟩
  have hrun := readRun_string (s := s) hplain
  have e := exec_puts_readRun (s := s) (ws := cellsFrom n (s.reg 0) s.mem) (by rw [hrun, hzero]) fun w hw => by
    obtain ⟨k, hk, rfl⟩ := mem_cellsFrom.1 hw
    exact hcells k hk
  rw [e, hrun, cellsFrom, List.map_map]
  rfl

/-- Settles O34: as PUTS, with two bytes a word. -/
theorem putspEmitsString : Obligations.PutspEmitsString := by
  refine ⟨fun s ws z h hw hz => exec_putsp_readRun h hw hz, fun s n hplain hcells hzero => ?_⟩
  have hrun := readRun_string (s := s) hplain
  have e := exec_putsp_readRun (s := s) (ws := cellsFrom n (s.reg 0) s.mem) (by rw [hrun]) (fun w hw => by
    obtain ⟨k, hk, rfl⟩ := mem_cellsFrom.1 hw
    exact hcells k hk) hzero
  rw [e, hrun, cellsFrom, List.flatMap_map]
  rfl

/-- Settles O35: PUTSP ends at the status register at the latest. -/
theorem putspAlwaysEnds : Obligations.PutspAlwaysEnds := by
  intro s
  obtain ⟨t, h⟩ := scanPutsp_ends (s.reg 0) s.link
  exact ⟨t, exec_putsp_of_scan h⟩

/-- Settles O36: a PUTS that does not end needs keys. -/
theorem putsEndsWithoutKeys : Obligations.PutsEndsWithoutKeys := by
  intro s _ hf
  cases h : scanPuts s.link.scanFuel (s.reg 0) s.link with
  | some t => exact ⟨t, exec_puts_of_scan h⟩
  | none =>
    obtain ⟨_, _, hkeys⟩ := scanPuts_never_ends h
    exact absurd (hf 0) (hkeys 0)

/-- Settles O37: every word that the scan can read is non-zero, and stays so. -/
theorem putsWithoutTerminatorHangs : Obligations.PutsWithoutTerminatorHangs := fun _ hm hr hb hk =>
  exec_puts_fault_iff.2 (scanPuts_endless _ ⟨hm, hk, .inl ⟨hr, hb⟩⟩)

/-- Settles O38: each round takes a key, and only a steady stream outlasts the bound. -/
theorem endlessStringNeverEnds : Obligations.EndlessStringNeverEnds := by
  intro s h
  obtain ⟨hnone, hsteady, _⟩ := scanPuts_never_ends (exec_puts_fault_iff.1 h)
  exact ⟨hnone, hsteady⟩

/-- Settles O53: each shape of a next state says what its output is; those that emit are the routines named. -/
theorem outputOnlyGrowsByTraps : Obligations.OutputOnlyGrowsByTraps := by
  intro i s t h
  cases exec_shape h with
  | produce u _ _ hu _ _ _ _ _ _ e => exact out_grows_of_kept (e ▸ hu.out_kept)
  | store u _ _ hu _ _ _ _ _ _ e => exact out_grows_of_kept (e ▸ hu.out_kept)
  | jump _ _ _ _ _ e => exact out_grows_of_kept (e ▸ rfl)
  | call _ _ _ _ _ e => exact out_grows_of_kept (e ▸ rfl)
  | key u _ hu _ ho _ _ _ _ hi e =>
    refine ⟨e ▸ hu.out_grows, fun hq => ?_⟩
    rcases hi with rfl | rfl | rfl | rfl
    case inl => exact e ▸ ho (.inl rfl)
    all_goals exact hq.elim
  | emits ht _ _ _ _ _ hi =>
    refine ⟨ht.out_grows, fun hq => ?_⟩
    rcases hi with rfl | rfl | rfl | ⟨v, _, rfl⟩ <;> exact hq.elim
  | halts _ _ _ hi e =>
    refine ⟨⟨Config.haltText, e ▸ rfl⟩, fun hq => ?_⟩
    rcases hi with rfl | rfl <;> exact hq.elim
  | raises _ _ _ _ _ e => exact out_grows_of_kept (e ▸ rfl)

/-- Settles O27: both sides are the routine after the link write. -/
theorem trapVectorsNameTheRoutines : Obligations.TrapVectorsNameTheRoutines := by
  intro s
  rw [exec_getc, exec_out, exec_puts, exec_inp, exec_putsp, exec_halt]
  simp [exec, execTrap]

/-- Settles O28: none of the six vectors is in the range. -/
theorem unknownTrapOnlyLinks : Obligations.UnknownTrapOnlyLinks := by
  intro v s hv
  rcases exec_trap_cases v s with ⟨rfl, _⟩ | ⟨rfl, _⟩ | ⟨rfl, _⟩ | ⟨rfl, _⟩ | ⟨rfl, _⟩ | ⟨rfl, _⟩ | ⟨_, e⟩
  case inr.inr.inr.inr.inr.inr => exact e
  all_goals exact absurd hv (by decide)

/-- Settles O32: the link write leaves R0. -/
theorem outEmitsLowByte : Obligations.OutEmitsLowByte := by
  intro s
  rw [exec_out, trapOut, reg_zero_link]
  rfl

/-- Settles O39: the routine's state is halted, where the core takes no step. -/
theorem haltStopsTheMachine : Obligations.HaltStopsTheMachine := fun s => ⟨_, exec_halt s, rfl, rfl⟩

end Sys2Proof.Proofs
end

section
/-!
SUPPORT. RTI and the reserved opcode (45_unimplemented.md R115, R116): each raises the one exception, and the state that
raises it takes no step (60_exceptions.md R121, 10_state.md R18).
-/

namespace Sys2Proof.Laws

open Sys2Proof.Machine

theorem exec_rti (s : State) : exec .rti s = .next (s.raiseUnimplementedOpcode 0x8#4) := rfl

theorem exec_res (s : State) : exec .res s = .next (s.raiseUnimplementedOpcode 0xD#4) := rfl

/-- The exception writes the fault record and `run`, and nothing else. -/
theorem raiseUnimplementedOpcode_eq (s : State) (op : BitVec 4) :
    s.raiseUnimplementedOpcode op = { s with faultOpcode := op, run := .faulted } := rfl

theorem step_raiseUnimplementedOpcode (s : State) (op : BitVec 4) :
    step (s.raiseUnimplementedOpcode op) = .fault (.faulted op) := by
  obtain ⟨_, _, _, hfaulted⟩ := Proofs.stepRunsDecodedInstruction (s.raiseUnimplementedOpcode op)
  rw [hfaulted (raiseUnimplementedOpcode_run s op), raiseUnimplementedOpcode_faultOpcode]

end Sys2Proof.Laws
end

section
/-!
SETTLED. The statement of the family of unimplemented opcodes (45_unimplemented.md).
-/

namespace Sys2Proof.Proofs

open Sys2Proof Sys2Proof.Machine Sys2Proof.Laws

/-- Settles O40: both raise the exception, each with its own opcode, and a machine that has raised it stands still. -/
theorem unimplementedOpcodesFault : Obligations.UnimplementedOpcodesFault := by
  refine ⟨fun _ => decode_rti, fun _ => decode_res, fun s => ?_⟩
  rw [← raiseUnimplementedOpcode_eq, ← raiseUnimplementedOpcode_eq]
  exact ⟨exec_rti s, step_raiseUnimplementedOpcode s 0x8#4, exec_res s, step_raiseUnimplementedOpcode s 0xD#4⟩

end Sys2Proof.Proofs
end

section
/-!
SUPPORT. How a routine can end (60_exceptions.md R122, R124): the key wait is over or the terminal is silent for ever
(44_trap.md R103), the scan of PUTS ends or never does (R113), and that of PUTSP ends.
-/

namespace Sys2Proof.Laws

open Sys2Proof.Machine

/-- The instruction completes, or it polls for ever: no byte is latched and none will come (44_trap.md R103). -/
def CompletesOrWaits (r : Result) : Prop :=
  (∃ t, r = .next t) ∨
  ∃ u, r = .fault (.keyWait u) ∧ u.kbdReady = false ∧ u.kbd = { now := [], rest := .silent }

/-- A stream has a first key, or every poll of it fails. -/
theorem first_key_or_none (k : Kbd) :
    (∃ n b, (∀ j, j < n → k.answer j = none) ∧ k.answer n = some b) ∨ ∀ j, k.answer j = none := by
  by_cases hkey : ∃ n, k.answer n ≠ none
  · obtain ⟨b, hb⟩ := Option.ne_none_iff_exists'.1 (Nat.find_spec hkey)
    exact .inl ⟨Nat.find hkey, b, fun j hj => not_not.1 (Nat.find_min hkey hj), hb⟩
  · exact .inr fun j => not_not.1 fun hj => hkey ⟨j, hj⟩

/-- The wait ends with a byte latched, or with a silent stream behind an empty latch. -/
theorem waitKey_cases (s : State) :
    (∃ u, s.waitKey = (u, true)) ∨
    ∃ u, s.waitKey = (u, false) ∧ u.kbdReady = false ∧ u.kbd = { now := [], rest := .silent } := by
  cases hr : s.kbdReady with
  | true => exact .inl ⟨s, waitKey_latched hr⟩
  | false =>
    rcases first_key_or_none s.kbd with ⟨n, b, hfail, hkey⟩ | hfail
    · exact .inl ⟨_, waitKey_delivers hr hfail hkey⟩
    · exact .inr ⟨_, waitKey_fails hr hfail, hr, rfl⟩

theorem trapGetc_completesOrWaits (s : State) : CompletesOrWaits (trapGetc s) := by
  rw [trapGetc]
  rcases waitKey_cases s with ⟨u, hw⟩ | ⟨u, hw, hsilent⟩
  · exact .inl ⟨_, by rw [hw]⟩
  · exact .inr ⟨u, by rw [hw], hsilent⟩

theorem trapIn_completesOrWaits (s : State) : CompletesOrWaits (trapIn s) := by
  rw [trapIn]
  rcases waitKey_cases (s.emit Config.inPrompt) with ⟨u, hw⟩ | ⟨u, hw, hsilent⟩
  · exact .inl ⟨_, by rw [hw]⟩
  · exact .inr ⟨u, by rw [hw], hsilent⟩

theorem trapPuts_next_or_endless (s : State) : (∃ t, trapPuts s = .next t) ∨ trapPuts s = .fault .endlessString := by
  cases hscan : scanPuts s.scanFuel (s.reg 0) s with
  | some t => exact .inl ⟨t, trapPuts_next_iff.2 hscan⟩
  | none => exact .inr (trapPuts_fault_iff.2 hscan)

/-- PUTSP ends from every state, at the status register at the latest. -/
theorem trapPutsp_completes (s : State) : ∃ t, trapPutsp s = .next t := by
  obtain ⟨t, hscan⟩ := scanPutsp_ends (s.reg 0) s
  exact ⟨t, trapPutsp_next_iff.2 hscan⟩

end Sys2Proof.Laws
end

section
/-!
SETTLED. The statement of the exceptions family (60_exceptions.md).
-/

namespace Sys2Proof.Proofs

open Sys2Proof Sys2Proof.Machine Sys2Proof.Laws

/-- Settles O55: outside the routines every meaning is a next state; of the routines only GETC and IN wait, and only
PUTS scans without end, by name or by vector. -/
theorem onlyKeyWaitsAndScansNeverEnd : Obligations.OnlyKeyWaitsAndScansNeverEnd := by
  intro i s
  cases i with
  | addReg | addImm | andReg | andImm | not | ld | ldi | ldr | lea | st | sti | str => exact .inl ⟨_, rfl⟩
  | br | nop | jmp | ret | jsr | jsrr | rti | res | out | halt => exact .inl ⟨_, rfl⟩
  | getc => exact (trapGetc_completesOrWaits s.link).imp_right fun hwait => .inl ⟨.inl rfl, hwait⟩
  | inp => exact (trapIn_completesOrWaits s.link).imp_right fun hwait => .inl ⟨.inr (.inl rfl), hwait⟩
  | puts => exact (trapPuts_next_or_endless s.link).imp_right fun hscan => .inr ⟨.inl rfl, hscan⟩
  | putsp => exact .inl (trapPutsp_completes s.link)
  | trap v =>
    rcases exec_trap_cases v s with ⟨rfl, e⟩ | ⟨_, e⟩ | ⟨rfl, e⟩ | ⟨rfl, e⟩ | ⟨_, e⟩ | ⟨_, e⟩ | ⟨_, e⟩ <;> rw [e]
    · exact (trapGetc_completesOrWaits s.link).imp_right fun hwait => .inl ⟨.inr (.inr (.inl rfl)), hwait⟩
    · exact .inl ⟨_, rfl⟩
    · exact (trapPuts_next_or_endless s.link).imp_right fun hscan => .inr ⟨.inr rfl, hscan⟩
    · exact (trapIn_completesOrWaits s.link).imp_right fun hwait => .inl ⟨.inr (.inr (.inr rfl)), hwait⟩
    · exact .inl (trapPutsp_completes s.link)
    · exact .inl ⟨_, rfl⟩
    · exact .inl ⟨_, rfl⟩

end Sys2Proof.Proofs
end

section
/-!
SUPPORT. The state after reset (70_reset_and_hazards.md R140) and the image it is built from (R142): the words of an
image and its bytes, what the loader writes and what it leaves alone, and which images boot.
-/

namespace Sys2Proof.Laws

open Sys2Proof.Machine

/-- At reset the latch is empty and clean and there is no fault, so canonical memory is all that the invariant asks. -/
theorem resetWith_inv (origin : Word) {m : Memory} (kbd : Kbd) (hm : m.wf = true) :
    (State.resetWith origin m kbd).Inv = true :=
  (inv_iff _).2 ⟨hm, rfl, rfl⟩

/-! The words of an image -/

/-- The two bytes of a word, the high one first (70_reset_and_hazards.md R142). -/
def bigEndian (w : Word) : List Byte := [w.extractLsb' 8 8, w.extractLsb' 0 8]

theorem bigEndian_append (hi lo : Byte) : bigEndian (hi ++ lo) = [hi, lo] := by
  have hhi : (hi ++ lo).extractLsb' 8 8 = hi := BitVec.extractLsb'_append_eq_left
  have hlo : (hi ++ lo).extractLsb' 0 8 = lo := BitVec.extractLsb'_append_eq_right
  rw [bigEndian, hhi, hlo]

theorem imageWords_cons_cons (hi lo : Byte) (rest : List Byte) :
    imageWords (hi :: lo :: rest) = (imageWords rest).map fun ws => (hi ++ lo) :: ws := by
  cases h : imageWords rest <;> simp [imageWords, h]

/-- Where an image has words, it is their big-endian bytes. -/
theorem eq_bytes_of_imageWords {bytes : List Byte} {ws : List Word} (h : imageWords bytes = some ws) :
    bytes = ws.flatMap bigEndian := by
  induction bytes using imageWords.induct generalizing ws with
  | case1 => cases h; rfl
  | case2 => cases h
  | case3 hi lo rest _ _ ih | case4 hi lo rest _ ih =>
    rw [imageWords_cons_cons, Option.map_eq_some_iff] at h
    obtain ⟨ws', hrest, rfl⟩ := h
    rw [List.flatMap_cons, bigEndian_append, ← ih hrest]
    rfl

/-! What the loader writes (10_state.md R27) -/

theorem loadWords_wf {m : Memory} (a : Word) (ws : List Word) (hm : m.wf = true) : (loadWords m a ws).wf = true := by
  induction ws generalizing m a with
  | nil => exact hm
  | cons w rest ih => exact ih (a + 1#16) (wf_write m a w hm)

/-- The loader leaves alone every cell that is none of the words' places. -/
theorem read_loadWords_other {m : Memory} {a b : Word} {ws : List Word}
    (h : ∀ k, k < ws.length → b ≠ a + BitVec.ofNat 16 k) : (loadWords m a ws).read b = m.read b := by
  induction ws generalizing m a with
  | nil => rfl
  | cons w rest ih =>
    have hhead : b ≠ a := by simpa using h 0 (Nat.succ_pos _)
    calc (loadWords (m.write a w) (a + 1#16) rest).read b
      _ = (m.write a w).read b := ih fun k hk => add_succ a k ▸ h (k + 1) (Nat.succ_lt_succ hk)
      _ = m.read b := read_write_other m w hhead

/-- Words that do not go round the address space stand in order: no later one falls on the place of an earlier one. -/
theorem read_loadWords {m : Memory} {a : Word} {ws : List Word} (hlen : ws.length ≤ 65536) {k : Nat}
    (hk : k < ws.length) : (loadWords m a ws).read (a + BitVec.ofNat 16 k) = ws[k] := by
  induction ws generalizing m a k with
  | nil => cases hk
  | cons w rest ih =>
    rw [List.length_cons] at hlen hk
    cases k with
    | zero =>
      have hlater : ∀ j, j < rest.length → a ≠ a + 1#16 + BitVec.ofNat 16 j := by
        intro j hj
        bv_omega
      calc (loadWords (m.write a w) (a + 1#16) rest).read (a + 0#16)
        _ = (m.write a w).read a := by rw [BitVec.add_zero, read_loadWords_other hlater]
        _ = w := read_write_same m a w
    | succ k =>
      rw [← add_succ]
      exact ih (Nat.le_of_succ_le hlen) (Nat.lt_of_succ_lt_succ hk)

/-! Which images boot, and into what state (log entry 6) -/

theorem bootImage_eq_some_iff {bytes : List Byte} {kbd : Kbd} {s : State} :
    bootImage bytes kbd = some s ↔ ∃ origin ws, imageWords bytes = some (origin :: ws) ∧
      origin.toNat + ws.length ≤ 65536 ∧ State.resetWith origin (loadWords [] origin ws) kbd = s := by
  rcases h : imageWords bytes with _ | _ | ⟨origin, ws⟩ <;> simp [bootImage, h]

end Sys2Proof.Laws
end

section
/-!
SETTLED. The statements of the family of reset and hazards (70_reset_and_hazards.md).
-/

namespace Sys2Proof.Proofs

open Sys2Proof Sys2Proof.Machine Sys2Proof.Laws

/-- Settles O58: the empty memory is canonical too. -/
theorem resetHasInvariant : Obligations.ResetHasInvariant :=
  ⟨resetWith_inv _ _ wf_nil, fun origin _ kbd hm => resetWith_inv origin kbd hm⟩

/-- Settles O60: the words after ORIGIN fit below the end of memory, so the loader writes each to a place of its own. -/
theorem bootLoadsImage : Obligations.BootLoadsImage := by
  intro bytes kbd s h
  obtain ⟨origin, ws, hwords, hfits, rfl⟩ := bootImage_eq_some_iff.1 h
  have hlen : ws.length ≤ 65536 := Nat.le_of_add_left_le hfits
  refine ⟨origin, ws, eq_bytes_of_imageWords hwords, rfl, fun k hk => read_loadWords hlen hk, fun a ha => ?_, ?_⟩
  · rw [resetWith_mem, read_loadWords_other ha, read_nil, Config.blank]
  · exact resetWith_inv origin kbd (loadWords_wf origin ws wf_nil)

end Sys2Proof.Proofs
end
